-- ==== Sys2Proof/Word.lean ====
section
/-! DEFINITION. The element type and the buffer type of the unit (spec/00_scope.md rule R8). -/

namespace Sys2Proof

/-- A byte: "an 8-bit unsigned value in 0..255" (R8). -/
abbrev Byte := BitVec 8

/-- A buffer: "a finite sequence of bytes", byte 0 first, of any length `N ≥ 0` (R8).
It is a list of exactly its length and has no lanes beyond it (R18). -/
abbrev Buffer := List Byte

end Sys2Proof
end

