-- ==== Sys2Proof/Config.lean ====
section
/-! DEFINITION. The three parameters that are fixed when the unit is built (spec/00_scope.md rules
R4 to R6). The spec wants the model to take them as arguments, so they are data that every meaning
receives; State carries one Config and no operation writes it (R21, R22). -/

namespace Sys2Proof

/-- A parameter that is "either a natural number … or `INF`" (R4, R5). -/
inductive Limit where
  | finite (n : Nat)
  | inf
  deriving DecidableEq, Repr

/-- `LOGIC_LEN_POLICY` (R6): what AND, OR and XOR do with operands of different lengths. -/
inductive LenPolicy where
  /-- `FAULT`: the spec's default. -/
  | fault
  /-- `ZIP_TRUNCATE`: the source's original behaviour. -/
  | zipTruncate
  deriving DecidableEq, Repr

/-- The build-time parameters of one unit. -/
structure Config where
  /-- `MAX_BYTES` (R4). -/
  maxBytes : Limit
  /-- `AMT_W` (R5). -/
  amtW : Limit
  /-- `LOGIC_LEN_POLICY` (R6). -/
  logicLenPolicy : LenPolicy
  deriving DecidableEq, Repr

/-- The parameters a State is reset with where nobody names others: `MAX_BYTES = INF` and the
policy `FAULT` ("Unless a row says otherwise, `MAX_BYTES = INF` and `LOGIC_LEN_POLICY = FAULT`",
spec/95_test_vectors.md; R6 "The spec's default is `FAULT`"). `AMT_W = INF` is a DESIGN CHOICE:
the spec leaves `AMT_W` open (log entry 2, unsafe). -/
def Config.standard : Config :=
  { maxBytes := .inf, amtW := .inf, logicLenPolicy := .fault }

end Sys2Proof
end

