-- ==== Sys2Proof/Syntax.lean ====
section
/-! DEFINITION. The unit's instruction set (spec/30_encoding.md rule R35) and the request that
carries an instruction's command byte and operands (spec/10_state.md rule R14). -/

namespace Sys2Proof

/-- The eleven operations of R35, "the unit's whole instruction set" (R81). The operands are ports
of the request, not fields of the command byte (R33), so the constructors carry nothing and every
term is a well-formed instruction. -/
inductive Instr where
  | and
  | or
  | xor
  | not
  | shr
  | shl
  | rol
  | ror
  | testbit
  | bit
  | popcnt
  deriving DecidableEq, Repr

/-- A request (R14). The fields `lenA` and `lenB` of R14 are the lengths of the two lists:
"A model represents a buffer as a list of exactly its length" (R18). -/
structure Request where
  /-- `cmd[7:0]`, the command byte. -/
  cmd : Byte
  /-- `A`, the first operand buffer. -/
  a : Buffer
  /-- `B`, the second operand buffer. -/
  b : Buffer
  /-- `AMT`, the signed amount or index on its port. -/
  amt : Int
  deriving DecidableEq, Repr

/-- `lenA`, the byte count of `A` (R14). -/
abbrev Request.lenA (r : Request) : Nat := r.a.length

/-- `lenB`, the byte count of `B` (R14). -/
abbrev Request.lenB (r : Request) : Nat := r.b.length

end Sys2Proof
end

