-- ==== Sys2Proof/WellFormed.lean ====
section
/-! DEFINITION. Which parameters a unit can be built with (spec/00_scope.md rules R4, R5) and which
requests its ports can carry (spec/10_state.md rule R15). Instructions have no fields, so there is
nothing to check on an Instr. -/

namespace Sys2Proof

/-- `n ≤ MAX_BYTES`, true of every `n` when the limit is `INF`. -/
def Limit.allows : Limit → Nat → Bool
  | .finite m, n => decide (n ≤ m)
  | .inf, _ => true

/-- `AMT` lies in the range of R5: `[-2^(AMT_W-1), 2^(AMT_W-1)-1]`, or any integer when `AMT_W` is
`INF`. -/
def Limit.carries : Limit → Int → Bool
  | .finite w, i => decide (-(2 ^ (w - 1) : Int) ≤ i ∧ i ≤ 2 ^ (w - 1) - 1)
  | .inf, _ => true

/-- The parameter is `INF` or a natural number of at least `least`. -/
def Limit.atLeast (least : Nat) : Limit → Bool
  | .finite n => decide (least ≤ n)
  | .inf => true

/-- `MAX_BYTES ≥ 1` (R4) and `AMT_W ≥ 2` (R5). -/
def Config.wf (c : Config) : Bool :=
  c.maxBytes.atLeast 1 && c.amtW.atLeast 2

/-- R15: "A request is well formed only when `lenA ≤ MAX_BYTES`, `lenB ≤ MAX_BYTES` and `AMT` lies
in the range of … R5". Every operand port counts, also one the opcode does not read (DEDUCED, log
entry 12). -/
def Request.wf (c : Config) (r : Request) : Bool :=
  c.maxBytes.allows r.lenA && c.maxBytes.allows r.lenB && c.amtW.carries r.amt

end Sys2Proof
end

