-- ==== Sys2Proof/Decode.lean ====
section
/-! DEFINITION. The decoder of the command byte and the encoder (spec/30_encoding.md rules R33 to
R36 and R39). -/

namespace Sys2Proof

/-- Why a command byte is no instruction; both raise `ILLEGAL_OP` (R63). -/
inductive Reject where
  /-- `cmd[7:4] ≠ 0000`, whatever `cmd[3:0]` holds (R34). -/
  | reservedField
  /-- `cmd[7:4] = 0000` and `cmd[3:0]` in `0xB..0xF` (R36). -/
  | reservedOpcode
  deriving DecidableEq, Repr

/-- The field `OP = cmd[3:0]` (R33). -/
def opField (cmd : Byte) : BitVec 4 := cmd.extractLsb' 0 4

/-- The field `RSV = cmd[7:4]` (R33). -/
def rsvField (cmd : Byte) : BitVec 4 := cmd.extractLsb' 4 4

/-- The opcode map of R35. -/
def decodeOpcode (op : BitVec 4) : Except Reject Instr :=
  match op.toNat with
  | 0x0 => .ok .and
  | 0x1 => .ok .or
  | 0x2 => .ok .xor
  | 0x3 => .ok .not
  | 0x4 => .ok .shr
  | 0x5 => .ok .shl
  | 0x6 => .ok .rol
  | 0x7 => .ok .ror
  | 0x8 => .ok .testbit
  | 0x9 => .ok .bit
  | 0xA => .ok .popcnt
  | _ => .error .reservedOpcode

/-- `decode(cmd)` of R39, total over the 256 byte values. -/
def decode (cmd : Byte) : Except Reject Instr :=
  if rsvField cmd ≠ 0 then .error .reservedField else decodeOpcode (opField cmd)

/-- The column `OP` of R35. -/
def opcode : Instr → BitVec 4
  | .and => 0x0
  | .or => 0x1
  | .xor => 0x2
  | .not => 0x3
  | .shr => 0x4
  | .shl => 0x5
  | .rol => 0x6
  | .ror => 0x7
  | .testbit => 0x8
  | .bit => 0x9
  | .popcnt => 0xA

/-- The command byte of an instruction: `cmd[7:4] = 0000` and `cmd[3:0]` the opcode (R33, R35). -/
def encode (i : Instr) : Byte := (0 : BitVec 4) ++ opcode i

/-- The instruction the decoder reads from a word of the opcode table. Every command is exactly one
byte (R39), so a word of another width, or one that does not fit a byte, is no command. -/
def decodeTableWord (nbits w : Nat) : Option Instr :=
  if nbits = 8 ∧ w < 256 then
    match decode (BitVec.ofNat 8 w) with
    | .ok i => some i
    | .error _ => none
  else none

end Sys2Proof
end

