-- ==== Sys2Proof/Machine/State.lean ====
section
/-! DEFINITION. What the unit answers and what a run holds (spec/10_state.md rules R13 to R22).
The unit itself keeps nothing from one request to the next (R13), has no registers, program counter,
memory or flags (R20, R21); State holds the parameters, the requests on their way to the ports and
the requests answered so far with their responses (R80). -/

namespace Sys2Proof.Machine

/-- A fault of the unit (R61, R62), with the diagnostic `info` that "a model may carry with the
fault" (R61) and that no port shows (log entry 6). A fault is a response: the machine goes on (R61,
R71), so no constructor here stops a run (DEDUCED, log entry 1). -/
inductive UnitFault where
  /-- `ILLEGAL_OP` (R63), raised by the decoder; `info` is the command byte. -/
  | illegalOp (cmd : Byte)
  /-- `LENGTH_MISMATCH` (R64), raised by AND, OR and XOR; `info` is the two lengths. -/
  | lengthMismatch (lenA lenB : Nat)
  /-- `NEG_AMOUNT` (R65), raised by ROL and ROR; `info` is the amount. -/
  | negAmount (i : Int)
  /-- `NEG_INDEX` (R66), raised by BIT; `info` is the index. -/
  | negIndex (i : Int)
  /-- `CAPACITY` (R67), raised by SHL and BIT; `info` is the length the result would need. -/
  | capacity (required : Nat)
  deriving DecidableEq, Repr

/-- The one valid result field of a response whose status is OK (R17). -/
inductive Result where
  /-- `R`, with `lenR` its length. -/
  | buf (R : Buffer)
  /-- `T`. -/
  | bool (T : Bool)
  /-- `C`, a natural that never wraps (R7). -/
  | count (C : Nat)
  deriving DecidableEq, Repr

/-- A response (R16). A result field that is not valid "holds no value" (R17), so a response holds
the valid one alone, and a faulting response none (R61). -/
inductive Response where
  | ok (result : Result)
  | fault (cause : UnitFault)
  deriving DecidableEq, Repr

/-- A request and the one response it got (R78). -/
structure Exchange where
  request : Request
  response : Response
  deriving DecidableEq, Repr

/-- The state of a run (R80). Keeping the requests and the exchanges of a run in State is a DESIGN
CHOICE (log entry 3): the unit itself keeps neither (R13), and no meaning reads the exchanges. -/
structure State where
  /-- The build-time parameters (R4 to R6, R22). -/
  config : Config
  /-- The requests the host presents, in the order it presents them (R14, R20, R80); the head is on
  the request ports. -/
  requests : List Request
  /-- The requests that are complete, oldest first, each with its own response (R16, R78, R80); the
  last one's response is what the response ports show, until the next one (DESIGN CHOICE, log entry
  16). -/
  exchanges : List Exchange
  deriving DecidableEq, Repr

/-- Reasons a read of a response field stops: "reading it is a fault of the reader, never a zero"
(R17, R22). The operations `State.read…` of Machine/Flags.lean raise them; no step does. Safe: a
claim cannot rest on a value the unit does not define. -/
inductive Fault where
  /-- No request has completed since reset, so no response field holds a value (R22). Safe. -/
  | noResponseYet
  /-- The field is not the one `kind` names (R17). Safe. -/
  | fieldHoldsNoValue
  deriving DecidableEq, Repr

/-- Reasons the model has no answer; none of them belongs to an instruction. All are safe: no claim
is made about what lies behind them. -/
inductive Refusal where
  /-- An instruction without a meaning; no arm of exec uses it any more. Safe. -/
  | notModelled (mnemonic : String)
  /-- A step with no request on the ports (R80: the run has ended; DESIGN CHOICE, log entry 4). Raised
  by step and exec. Safe. -/
  | noRequest
  /-- Parameters no unit is built with: `MAX_BYTES < 1` or `AMT_W < 2` (R4, R5; DEDUCED, log entry 9).
  Raised by step. Safe. -/
  | parameterOutOfRange
  /-- A request the ports cannot carry (R15). Raised by step. Safe. -/
  | requestNotWellFormed
  /-- A response carrying a status code `0x6..0xF` (93 U17). Raised by `readPorts`. Safe. -/
  | reservedStatus
  /-- A response whose status and kind contradict R17 (93 U18). Raised by `readPorts`. Safe. -/
  | statusKindMismatch
  deriving DecidableEq, Repr

/-- A unit just after reset, built with the parameters `c`: no request yet, no response yet
(R22, R75; spec/95_test_vectors.md section 3 "reset done, no request yet"). -/
def State.resetWith (c : Config) : State :=
  { config := c, requests := [], exchanges := [] }

/-- The machine right after reset, with the standard parameters (log entry 2). -/
def State.reset : State := State.resetWith Config.standard

end Sys2Proof.Machine
end

