-- ==== Sys2Proof/Machine/Operands.lean ====
section
/-! DEFINITION. The operand forms: bytes and buffers (spec/00_scope.md rules R8 to R12), the bit
index space (spec/20_memory.md rule R23) and the amount port (spec/30_encoding.md rules R37, R38). -/

namespace Sys2Proof.Machine

/-- `x << s` for `0 ≤ s ≤ 8`: "the left shift truncated to 8 bits" (R9). -/
def shlByte (x : Byte) (s : Nat) : Byte := x <<< s

/-- `x >> s` for `0 ≤ s ≤ 8`: "the logical right shift that fills with zeros" (R9). -/
def shrByte (x : Byte) (s : Nat) : Byte := x >>> s

/-- `X[k]`, and the virtual byte of value 0 where `k` names none. The meanings ask for an index
outside `X` only where a rule names that virtual byte (R12). -/
def byteAt (X : Buffer) (k : Nat) : Byte := X.getD k 0

/-- "for k in 0..M-1: R[k] <- e(k)": a buffer of exactly `M` bytes whose byte `k` is `e k` (R12). -/
def build (M : Nat) (e : Nat → Byte) : Buffer := (List.range M).map e

/-- `zeros(n)` (R8). -/
def zeros (n : Nat) : Buffer := List.replicate n 0

/-- `ceil(n/8)` (R10). -/
def ceilDiv8 (n : Nat) : Nat := (n + 7) / 8

/-- `sext_AMT_W(AMT)` (R38): the two's-complement value of the port's `AMT_W` bits, or the unbounded
integer on the port when `AMT_W = INF`. The port word is taken as the low `AMT_W` bits of the integer
the host presents (DEDUCED, log entry 8). -/
def sextAmt : Limit → Int → Int
  | .finite w, amt => (BitVec.ofInt w amt).toInt
  | .inf, amt => amt

/-- The amount or index operand `i` of a request; no scaling and no offset (R38). -/
def amount (c : Config) (r : Request) : Int := sextAmt c.amtW r.amt

/-- `n` exceeds a finite `MAX_BYTES`; never with `INF` (R67). -/
def exceeds (c : Config) (n : Nat) : Bool := !c.maxBytes.allows n

/-- The opcodes that read `A` (R37). -/
def readsA : Instr → Bool
  | .and | .or | .xor | .not | .shr | .shl | .rol | .ror | .testbit | .popcnt => true
  | .bit => false

/-- The opcodes that read `B` (R37). -/
def readsB : Instr → Bool
  | .and | .or | .xor => true
  | .not | .shr | .shl | .rol | .ror | .testbit | .bit | .popcnt => false

/-- The opcodes that read `AMT` (R37). -/
def readsAmt : Instr → Bool
  | .shr | .shl | .rol | .ror | .testbit | .bit => true
  | .and | .or | .xor | .not | .popcnt => false

end Sys2Proof.Machine
end

