-- ==== Sys2Proof/Machine/Flags.lean ====
section
/-! DEFINITION. The unit has no flags (spec/10_state.md rule R21). What a host tests in their place
are the response's `status` and `kind` fields and its result fields (R16, R17, R22; status codes:
spec/60_exceptions.md rule R62). -/

namespace Sys2Proof.Machine

/-- The names of R62. -/
inductive Status where
  | ok
  | illegalOp
  | lengthMismatch
  | negAmount
  | negIndex
  | capacity
  deriving DecidableEq, Repr

/-- The column `code` of R62. -/
def Status.code : Status → BitVec 4
  | .ok => 0x0
  | .illegalOp => 0x1
  | .lengthMismatch => 0x2
  | .negAmount => 0x3
  | .negIndex => 0x4
  | .capacity => 0x5

/-- The name a status code stands for; none for the reserved codes `0x6..0xF` (R62). -/
def Status.ofCode (code : BitVec 4) : Option Status :=
  match code.toNat with
  | 0x0 => some .ok
  | 0x1 => some .illegalOp
  | 0x2 => some .lengthMismatch
  | 0x3 => some .negAmount
  | 0x4 => some .negIndex
  | 0x5 => some .capacity
  | _ => none

/-- The names of the field `kind` (R16). -/
inductive ResultKind where
  | buf
  | bool
  | count
  | none
  deriving DecidableEq, Repr

/-- The values of the 2-bit field `kind` (R16). -/
def ResultKind.code : ResultKind → BitVec 2
  | .buf => 0
  | .bool => 1
  | .count => 2
  | .none => 3

/-- The kind a 2-bit code stands for; all four codes are used (R16). -/
def ResultKind.ofCode (code : BitVec 2) : ResultKind :=
  match code.toNat with
  | 0 => .buf
  | 1 => .bool
  | 2 => .count
  | _ => .none

/-- The kind that names a result field (R17). -/
def Result.kind : Result → ResultKind
  | .buf _ => .buf
  | .bool _ => .bool
  | .count _ => .count

/-- The status a fault is reported with (R62). -/
def UnitFault.status : UnitFault → Status
  | .illegalOp _ => .illegalOp
  | .lengthMismatch _ _ => .lengthMismatch
  | .negAmount _ => .negAmount
  | .negIndex _ => .negIndex
  | .capacity _ => .capacity

/-- The port `status[3:0]` (R16, R61, R62). -/
def Response.status : Response → BitVec 4
  | .ok _ => Status.code .ok
  | .fault f => f.status.code

/-- The port `kind[1:0]` (R16, R17, R61). -/
def Response.kind : Response → BitVec 2
  | .ok res => res.kind.code
  | .fault _ => ResultKind.code .none

/-- The port `R`, where it holds a value (R17). -/
def Response.r? : Response → Option Buffer
  | .ok (.buf R) => some R
  | _ => none

/-- The port `lenR`, where it holds a value (R16, R17). -/
def Response.lenR? (p : Response) : Option Nat := p.r?.map List.length

/-- The port `T`, where it holds a value; `1` is true (R16, R17). -/
def Response.t? : Response → Option (BitVec 1)
  | .ok (.bool T) => some (BitVec.ofBool T)
  | _ => none

/-- The port `C`, where it holds a value (R16, R17). -/
def Response.c? : Response → Option Nat
  | .ok (.count C) => some C
  | _ => none

/-- The response on the response ports: the one of the last completed request, none before the first
request completes (R22). It can be read as soon as it is delivered (R77, R78); that it stays readable
until the next response or a reset, also while the next request is on the request ports, is the
model's choice (DESIGN CHOICE, log entry 16). -/
def State.response? (s : State) : Option Response := s.exchanges.getLast?.map Exchange.response

/-- The host reads one response field. A field that holds no value is a fault of the reader
(R17, R22). -/
def State.readField {α : Type} (s : State) (field : Response → Option α) : Except Fault α :=
  match s.response? with
  | none => .error .noResponseYet
  | some p =>
    match field p with
    | none => .error .fieldHoldsNoValue
    | some v => .ok v

def State.readStatus (s : State) : Except Fault (BitVec 4) := s.readField fun p => some p.status
def State.readKind (s : State) : Except Fault (BitVec 2) := s.readField fun p => some p.kind
def State.readR (s : State) : Except Fault Buffer := s.readField Response.r?
def State.readLenR (s : State) : Except Fault Nat := s.readField Response.lenR?
def State.readT (s : State) : Except Fault (BitVec 1) := s.readField Response.t?
def State.readC (s : State) : Except Fault Nat := s.readField Response.c?

/-- What a host makes of the two code fields of a response it received. Reserved status codes, and
pairs that R17 rules out, are "never produced" and refused (93 U17, U18; DEDUCED, log entry 13). -/
def readPorts (status : BitVec 4) (kind : BitVec 2) : Except Refusal (Status × ResultKind) :=
  match Status.ofCode status with
  | none => .error .reservedStatus
  | some st =>
    if (st = .ok) ↔ (ResultKind.ofCode kind ≠ .none) then .ok (st, ResultKind.ofCode kind)
    else .error .statusKindMismatch

end Sys2Proof.Machine
end

