-- ==== Sys2Proof/Machine/Ops.lean ====
section
/-! DEFINITION. The shared operations on State: presenting a request, answering it with a result or
with a fault, reset (spec/10_state.md, spec/60_exceptions.md rule R61, spec/70_reset_and_hazards.md
rule R75). The unit has no memory and no registers, so there are no operations on those. -/

namespace Sys2Proof.Machine

/-- The three outcomes of a meaning or a step. -/
abbrev Out := Host.Outcome State Fault Refusal

/-- What a rule's pseudocode ends in: a result, or `raise F(info)` (R11). -/
abbrev Reply := Except UnitFault Result

/-- The host presents one more request, behind the ones already waiting (R20, R80). -/
def State.present (s : State) (r : Request) : State := { s with requests := s.requests ++ [r] }

/-- The request on the ports leaves them, complete with its response (R29, R78). The request is kept
as it was presented: "A request never changes its operand buffers" (R19). -/
def State.deliver (s : State) (r : Request) (p : Response) : State :=
  { s with requests := s.requests.tail, exchanges := s.exchanges ++ [⟨r, p⟩] }

/-- The request on the ports completes with a result (R17). -/
def State.complete (s : State) (r : Request) (res : Result) : State := s.deliver r (.ok res)

/-- TAKING A FAULT, one shared operation (R61): the request ends at once, its response carries the
fault and no result, the operands are unchanged, and nothing else of the state changes. There is
nothing to save and nothing to return from (R70, R71). -/
def State.raise (s : State) (r : Request) (f : UnitFault) : State := s.deliver r (.fault f)

/-- Run a meaning on the request on the ports and answer it. -/
def State.serve (s : State) (meaning : Config → Request → Reply) : Out :=
  match s.requests with
  | [] => .refused .noRequest
  | r :: _ =>
    match meaning s.config r with
    | .ok res => .next (s.complete r res)
    | .error f => .next (s.raise r f)

/-- The request the unit accepts from its ports. "A model refuses such a request at its boundary and
gives it no response" (R15). The bounds hold for every port, also an unread one (DEDUCED, log entry
12), and the parameters are checked with them (log entry 9). -/
def State.accept (s : State) : Except Refusal Request :=
  match s.requests with
  | [] => .error .noRequest
  | r :: _ =>
    if s.config.wf then
      if r.wf s.config then .ok r else .error .requestNotWellFormed
    else .error .parameterOutOfRange

/-- A command byte that is no instruction raises `ILLEGAL_OP` before any operand is read
(R34, R36, R63). -/
def State.illegalCommand (s : State) (r : Request) : Out := .next (s.raise r (.illegalOp r.cmd))

/-- Reset of a unit in any state (R22, R75): the response fields hold no value any more, the request
ports stay the host's, the parameters are unchanged (DEDUCED, log entry 10). -/
def State.applyReset (s : State) : State := { s with exchanges := [] }

/-- Ports for a command byte that is presented alone: empty buffers and amount 0
(DESIGN CHOICE, log entry 5). -/
def bareRequest (cmd : Byte) : Request := { cmd := cmd, a := [], b := [], amt := 0 }

/-- The command byte placed on the request ports: over the command of the request that is there, or,
where no request that the ports can carry is there, as a bare request (log entry 5). -/
def State.withCommand (s : State) (cmd : Byte) : State :=
  { s with
    requests :=
      (match s.requests.head? with
        | some r => if r.wf s.config then { r with cmd := cmd } else bareRequest cmd
        | none => bareRequest cmd) :: s.requests.tail }

end Sys2Proof.Machine
end

