-- ==== Sys2Proof/Machine/Bit.lean ====
section
/-! DEFINITION. Bit test, bit-set constructor and population counter: TESTBIT, BIT, POPCNT
(spec/43_bit.md rules R57 to R60), with the little-endian bit numbering of R23 and R24. -/

namespace Sys2Proof.Machine

/-- The Boolean of TESTBIT (R57); an index outside `0..8N-1` gives false and is no error. -/
def testBitOf (X : Buffer) (i : Int) : Bool :=
  if i < 0 ∨ (8 * X.length : Int) ≤ i then false
  else (shrByte (byteAt X (i.toNat / 8)) (i.toNat % 8) &&& 0x01) == 0x01

/-- The buffer of BIT for an index `i ≥ 0` (R58): `zeros(n)` with `R[floor(i/8)] <- 0x01 << (i mod 8)`,
where `n = floor(i/8) + 1`. -/
def bitBuffer (i : Nat) : Buffer := (zeros (i / 8 + 1)).set (i / 8) (shlByte 0x01 (i % 8))

/-- Bit `j` of a byte as a number. -/
def bitOf (x : Byte) (j : Nat) : Nat := (x.getLsbD j).toNat

/-- `pop8(x)` (R59). -/
def pop8 (x : Byte) : Nat :=
  bitOf x 0 + bitOf x 1 + bitOf x 2 + bitOf x 3 + bitOf x 4 + bitOf x 5 + bitOf x 6 + bitOf x 7

/-- "sum over k in 0..lenA-1 of pop8(A[k])" (R60). -/
def popCountOf (X : Buffer) : Nat := (X.map pop8).sum

/-- TESTBIT (R57); it raises nothing. -/
def testbitReply (c : Config) (r : Request) : Reply := .ok (.bool (testBitOf r.a (amount c r)))

/-- BIT (R58): `NEG_INDEX` when `i < 0` (R66), else `CAPACITY` when `floor(i/8) + 1` exceeds a finite
`MAX_BYTES` (R67), in this order (R68). -/
def bitReply (c : Config) (r : Request) : Reply :=
  let i := amount c r
  let need := i.toNat / 8 + 1
  if i < 0 then .error (.negIndex i)
  else if exceeds c need then .error (.capacity need)
  else .ok (.buf (bitBuffer i.toNat))

/-- POPCNT (R60); it raises nothing, and `C` never wraps (R7). -/
def popcntReply (_ : Config) (r : Request) : Reply := .ok (.count (popCountOf r.a))

/-- The meaning of TESTBIT (R57). -/
def execTestbit (s : State) : Out := s.serve testbitReply

/-- The meaning of BIT (R58). -/
def execBit (s : State) : Out := s.serve bitReply

/-- The meaning of POPCNT (R60). -/
def execPopcnt (s : State) : Out := s.serve popcntReply

end Sys2Proof.Machine
end

