-- ==== Sys2Proof/Machine/Logic.lean ====
section
/-! DEFINITION. The bitwise logic unit: AND, OR, XOR, NOT (spec/40_logic.md rules R42 to R46). -/

namespace Sys2Proof.Machine

/-- `logic_len(lenA, lenB)` (R42). -/
def logicLen (c : Config) (lenA lenB : Nat) : Except UnitFault Nat :=
  if lenA = lenB then .ok lenA
  else
    match c.logicLenPolicy with
    | .fault => .error (.lengthMismatch lenA lenB)
    | .zipTruncate => .ok (min lenA lenB)

/-- The one function the source applies for AND, OR and XOR (spec/40_logic.md, first paragraph):
`R[k] <- f(A[k], B[k])` over `logic_len(lenA, lenB)` bytes. -/
def bitwise (f : Byte → Byte → Byte) (c : Config) (r : Request) : Reply :=
  match logicLen c r.lenA r.lenB with
  | .ok M => .ok (.buf (build M fun k => f (byteAt r.a k) (byteAt r.b k)))
  | .error e => .error e

/-- `R[k] <- ~X[k]` (R46). -/
def complementBuffer (X : Buffer) : Buffer := build X.length fun k => ~~~ byteAt X k

/-- AND (R43). -/
def andReply (c : Config) (r : Request) : Reply := bitwise (fun x y => x &&& y) c r

/-- OR (R44). -/
def orReply (c : Config) (r : Request) : Reply := bitwise (fun x y => x ||| y) c r

/-- XOR (R45). -/
def xorReply (c : Config) (r : Request) : Reply := bitwise (fun x y => x ^^^ y) c r

/-- NOT (R46); it raises nothing. -/
def notReply (_ : Config) (r : Request) : Reply := .ok (.buf (complementBuffer r.a))

/-- The meaning of AND (R43). -/
def execAnd (s : State) : Out := s.serve andReply

/-- The meaning of OR (R44). -/
def execOr (s : State) : Out := s.serve orReply

/-- The meaning of XOR (R45). -/
def execXor (s : State) : Out := s.serve xorReply

/-- The meaning of NOT (R46). -/
def execNot (s : State) : Out := s.serve notReply

end Sys2Proof.Machine
end

