-- ==== Sys2Proof/Machine/Rotate.lean ====
section
/-! DEFINITION. The rotator: ROL, ROR (spec/42_rotate.md rules R53 to R55). Byte 0 is the most
significant byte of a rotation (spec/90_conflicts.md C2). -/

namespace Sys2Proof.Machine

/-- `ROTB(X, n)` for any integer `n` (R53); `n mod L` has the sign of the divisor (R10). -/
def rotb (X : Buffer) (n : Int) : Buffer :=
  if X.length = 0 then []
  else
    let n' := (n % (X.length : Int)).toNat
    X.drop n' ++ X.take n'

/-- The sub-byte step of ROL, `0 < i < 8`: byte `k` pairs with its cyclic-next byte (R54). -/
def rolSubByte (X : Buffer) (i : Nat) : Buffer :=
  let P := rotb X 1
  build X.length fun k => shlByte (byteAt X k) i ||| shrByte (byteAt P k) (8 - i)

/-- `ROL(X, i)` for an amount `0 ≤ i < 8` (R54). -/
def rolBelow8 (X : Buffer) (i : Nat) : Buffer := if i = 0 then X else rolSubByte X i

/-- `ROL(X, i)`, `i ≥ 0` (R54), its one level of recursion unrolled. -/
def rolBuffer (X : Buffer) (i : Nat) : Buffer :=
  if i = 0 then X
  else if 8 ≤ i then rolBelow8 (rotb X ((i / 8 : Nat) : Int)) (i % 8)
  else rolSubByte X i

/-- The sub-byte step of ROR, `0 < i < 8`: byte `k` pairs with its cyclic-previous byte (R55). -/
def rorSubByte (X : Buffer) (i : Nat) : Buffer :=
  let P := rotb X (-1)
  build X.length fun k => shrByte (byteAt X k) i ||| shlByte (byteAt P k) (8 - i)

/-- `ROR(X, i)` for an amount `0 ≤ i < 8` (R55). -/
def rorBelow8 (X : Buffer) (i : Nat) : Buffer := if i = 0 then X else rorSubByte X i

/-- `ROR(X, i)`, `i ≥ 0` (R55), its one level of recursion unrolled. -/
def rorBuffer (X : Buffer) (i : Nat) : Buffer :=
  if i = 0 then X
  else if 8 ≤ i then rorBelow8 (rotb X (-((i / 8 : Nat) : Int))) (i % 8)
  else rorSubByte X i

/-- ROL (R54): `NEG_AMOUNT` when `i < 0` (R65). -/
def rolReply (c : Config) (r : Request) : Reply :=
  let i := amount c r
  if i < 0 then .error (.negAmount i) else .ok (.buf (rolBuffer r.a i.toNat))

/-- ROR (R55): `NEG_AMOUNT` when `i < 0` (R65). -/
def rorReply (c : Config) (r : Request) : Reply :=
  let i := amount c r
  if i < 0 then .error (.negAmount i) else .ok (.buf (rorBuffer r.a i.toNat))

/-- The meaning of ROL (R54). -/
def execRol (s : State) : Out := s.serve rolReply

/-- The meaning of ROR (R55). -/
def execRor (s : State) : Out := s.serve rorReply

end Sys2Proof.Machine
end

