-- ==== Sys2Proof/Machine/Shift.lean ====
section
/-! DEFINITION. The barrel shifter and its buffer-width adjuster: SHR, SHL (spec/41_shift.md rules
R47 to R50; the step rules win over the source's summaries, spec/90_conflicts.md C1, C4, C5). -/

namespace Sys2Proof.Machine

/-- `TRUNC(X, n) = X[0 .. max(len(X) - n, 0))` (R47). -/
def trunc (X : Buffer) (n : Nat) : Buffer := X.take (X.length - n)

/-- `PAD(X, n) = X ++ zeros(n)` (R48). -/
def pad (X : Buffer) (n : Nat) : Buffer := X ++ zeros n

/-- The sub-byte step of SHR, `0 < i < 8`: byte `k` takes the low bits of byte `k+1`, and the virtual
next byte of the last one is 0 (R49). -/
def shrSubByte (X : Buffer) (i : Nat) : Buffer :=
  build X.length fun k =>
    let nxt := if k + 1 < X.length then byteAt X (k + 1) else 0
    shrByte (byteAt X k) i ||| shlByte nxt (8 - i)

/-- `SHR(X, i)` for an amount `0 ≤ i < 8` (R49). -/
def shrBelow8 (X : Buffer) (i : Nat) : Buffer :=
  if i = 0 then X else if X.length = 0 then [] else shrSubByte X i

/-- `SHR(X, i)` (R49). The rule's recursion "goes at most one level deep": the inner call is
`shrBelow8`. -/
def shrBuffer (X : Buffer) (i : Int) : Buffer :=
  if i ≤ 0 then X
  else if X.length = 0 then []
  else if 8 ≤ i then shrBelow8 (trunc X (i.toNat / 8)) (i.toNat % 8)
  else shrSubByte X i.toNat

/-- The sub-byte step of SHL, `0 < i < 8`: the buffer grows by one zero byte at its end, and byte `k`
takes the top bits of byte `k-1`; the virtual predecessor of byte 0 is 0 (R50). -/
def shlSubByte (X : Buffer) (i : Nat) : Buffer :=
  let E := pad X 1
  build E.length fun k =>
    let prv := if 1 ≤ k then byteAt E (k - 1) else 0
    shlByte (byteAt E k) i ||| shrByte prv (8 - i)

/-- `SHL(X, i)` for an amount `0 ≤ i < 8` (R50). -/
def shlBelow8 (X : Buffer) (i : Nat) : Buffer := if i = 0 then X else shlSubByte X i

/-- `SHL(X, i)` (R50), its one level of recursion unrolled as in `shrBuffer`. -/
def shlBuffer (X : Buffer) (i : Int) : Buffer :=
  if i ≤ 0 then X
  else if 8 ≤ i then shlBelow8 (pad X (i.toNat / 8)) (i.toNat % 8)
  else shlSubByte X i.toNat

/-- SHR (R49); it raises nothing. -/
def shrReply (c : Config) (r : Request) : Reply := .ok (.buf (shrBuffer r.a (amount c r)))

/-- SHL (R50): `CAPACITY` when `i > 0` and `lenA + ceil(i/8)` exceeds a finite `MAX_BYTES` (R67). -/
def shlReply (c : Config) (r : Request) : Reply :=
  let i := amount c r
  let need := r.lenA + ceilDiv8 i.toNat
  if 0 < i ∧ exceeds c need then .error (.capacity need) else .ok (.buf (shlBuffer r.a i))

/-- The meaning of SHR (R49). -/
def execShr (s : State) : Out := s.serve shrReply

/-- The meaning of SHL (R50). -/
def execShl (s : State) : Out := s.serve shlReply

end Sys2Proof.Machine
end

