-- ==== Sys2Proof/Machine/Step.lean ====
section
/-! DEFINITION. One step: one request, taken from the ports, gets its one response (spec/20_memory.md
rule R29, spec/70_reset_and_hazards.md rule R78). -/

namespace Sys2Proof.Machine

/-- The request on the ports is refused where the ports cannot carry it (R15); else its command is
decoded (R39), and an illegal one faults before any operand is read (R63). -/
def step (s : State) : Host.Outcome State Fault Refusal :=
  match s.accept with
  | .error why => .refused why
  | .ok r =>
    match decode r.cmd with
    | .error _ => s.illegalCommand r
    | .ok i => exec i s

/-- The unit fetches nothing (R32): the command arrives on its port, so the word is presented there.
A command is one byte (R39), whatever width the caller names. -/
def State.withFetchWord (s : State) (_nbits w : Nat) : State := s.withCommand (BitVec.ofNat 8 w)

end Sys2Proof.Machine
end

