-- ==== Sys2Proof/Machine/Assembler.lean ====
section
/-! DEFINITION. The host's side: the written form of requests and a run of a program
(spec/30_encoding.md rules R40, R41; spec/70_reset_and_hazards.md rules R77, R80). It presents
requests to `step` one after another and never looks inside the unit. -/

namespace Sys2Proof.Machine

/-- One operand of a line (R40). -/
inductive Arg where
  /-- A buffer literal in the notation of R8. -/
  | literal (b : Buffer)
  /-- The name of an earlier line. -/
  | name (n : String)
  /-- `#n`, a signed decimal integer. -/
  | amount (i : Int)
  deriving DecidableEq, Repr

/-- A line `name = MNEMONIC operands` (R40). -/
structure Line where
  name : String
  mnemonic : String
  args : List Arg
  deriving DecidableEq, Repr

/-- Why the assembler refuses a program; no request is presented for the refused line. -/
inductive AsmError where
  /-- The text is not of the form of R40. -/
  | badSyntax
  /-- Neither a mnemonic of R35 nor an alias of R41. -/
  | unknownMnemonic
  /-- The operands are not those of the mnemonic's form (R40). -/
  | badOperands
  /-- A buffer operand names no earlier line. -/
  | unknownName
  /-- "Naming a line whose response faulted, or whose kind is not BUF" (R40). -/
  | notABuffer
  /-- Two lines of one name, which the spec does not provide for (log entry 7). -/
  | duplicateName
  deriving DecidableEq, Repr

/-- The mnemonics of R35 and the aliases of R41, case-sensitive. -/
def mnemonicTable : List (String × Instr) :=
  [("AND", .and), ("OR", .or), ("XOR", .xor), ("NOT", .not), ("SHR", .shr), ("SHL", .shl),
   ("ROL", .rol), ("ROR", .ror), ("TESTBIT", .testbit), ("BIT", .bit), ("POPCNT", .popcnt),
   ("and", .and), ("or", .or), ("xor", .xor), ("complement", .not),
   ("shiftRight", .shr), ("shiftR", .shr), ("shiftLeft", .shl), ("shiftL", .shl),
   ("rotateLeft", .rol), ("rotateL", .rol), ("rotateRight", .ror), ("rotateR", .ror),
   ("testBit", .testbit), ("setBitConstructor", .bit), ("bit", .bit), ("popCount", .popcnt)]

/-- The operation a mnemonic or an alias stands for. -/
def mnemonicOf (m : String) : Option Instr := mnemonicTable.lookup m

/-- The buffer an operand stands for, given the responses of the earlier lines (R40). -/
def resolveBuffer (env : List (String × Response)) : Arg → Except AsmError Buffer
  | .literal b => .ok b
  | .name n =>
    match env.lookup n with
    | none => .error .unknownName
    | some p =>
      match p.r? with
      | none => .error .notABuffer
      | some R => .ok R
  | .amount _ => .error .badOperands

/-- A line becomes "its `cmd` byte … plus the port values" (R40). "The unread ports … are left
unspecified": they keep what `fill` holds, whatever that is. -/
def assemble (fill : Request) (env : List (String × Response)) (l : Line) :
    Except AsmError Request :=
  match mnemonicOf l.mnemonic with
  | none => .error .unknownMnemonic
  | some i =>
    match readsA i, readsB i, readsAmt i, l.args with
    | true, true, false, [x, y] =>
      match resolveBuffer env x, resolveBuffer env y with
      | .ok a, .ok b => .ok { fill with cmd := encode i, a := a, b := b }
      | .error e, _ => .error e
      | _, .error e => .error e
    | true, false, false, [x] =>
      match resolveBuffer env x with
      | .ok a => .ok { fill with cmd := encode i, a := a }
      | .error e => .error e
    | true, false, true, [x, .amount n] =>
      match resolveBuffer env x with
      | .ok a => .ok { fill with cmd := encode i, a := a, amt := n }
      | .error e => .error e
    | false, false, true, [.amount n] => .ok { fill with cmd := encode i, amt := n }
    | _, _, _, _ => .error .badOperands

/-- Why a run of a program ends before its last line. -/
inductive RunStop where
  /-- The assembler refused a line. -/
  | assembler (why : AsmError)
  /-- The unit could not be presented with a line's request (R15). -/
  | machine (why : Refusal)
  /-- A response was read that is not there. -/
  | reader (why : Fault)
  deriving DecidableEq, Repr

/-- "Lines run one after another in text order, driven by the host" (R40): each line is assembled
with the responses of the lines before it, presented, answered, and its response read. The run ends
at the first line that is refused, and then has no list of responses (log entry 7). -/
def runLines (fill : Request) :
    List Line → List (String × Response) → State → Except RunStop (List (String × Response))
  | [], env, _ => .ok env
  | l :: ls, env, s =>
    if (env.lookup l.name).isSome then .error (.assembler .duplicateName)
    else
      match assemble fill env l with
      | .error why => .error (.assembler why)
      | .ok r =>
        match step (s.present r) with
        | .refused why => .error (.machine why)
        | .fault why => .error (.reader why)
        | .next t =>
          match t.response? with
          | none => .error (.reader .noResponseYet)
          | some p => runLines fill ls (env ++ [(l.name, p)]) t

/-- A run from reset of a unit with the parameters `c`: "its observable end state is the list of
responses, one per line" (R80). -/
def runProgram (c : Config) (fill : Request) (ls : List Line) :
    Except RunStop (List (String × Response)) :=
  runLines fill ls [] (State.resetWith c)

/-! ### The text of a line -/

/-- A word of letters, digits and `_`, or one punctuation character. -/
inductive Token where
  | word (w : List Char)
  | punct (c : Char)
  deriving DecidableEq, Repr

def isWordChar (c : Char) : Bool := c.isAlphanum || c == '_'

/-- A finished word, if there is one, in front of the tokens after it. -/
def flushWord (w : List Char) (ts : List Token) : List Token :=
  if w = [] then ts else .word w :: ts

/-- The tokens of one line; `;` starts a comment (R40). Blanks may stand between any two tokens (log
entry 7). `w` is the word being read. -/
def lex : List Char → List Char → Option (List Token)
  | [], w => some (flushWord w [])
  | c :: cs, w =>
    if isWordChar c then lex cs (w ++ [c])
    else if c == ';' then some (flushWord w [])
    else if c == ' ' || c == '\t' || c == '\r' then (lex cs []).map (flushWord w)
    else if ['=', '[', ']', ',', '#', '-'].contains c then
      (lex cs []).map fun ts => flushWord w (.punct c :: ts)
    else none

def hexDigit (c : Char) : Option Nat :=
  if '0' ≤ c ∧ c ≤ '9' then some (c.toNat - '0'.toNat)
  else if 'a' ≤ c ∧ c ≤ 'f' then some (c.toNat - 'a'.toNat + 10)
  else if 'A' ≤ c ∧ c ≤ 'F' then some (c.toNat - 'A'.toNat + 10)
  else none

/-- A byte "written `0xHH`" (R8); hexadecimal digits of either case (log entry 7). -/
def parseByte : List Char → Option Byte
  | ['0', 'x', h, l] =>
    match hexDigit h, hexDigit l with
    | some a, some b => some (BitVec.ofNat 8 (16 * a + b))
    | _, _ => none
  | _ => none

/-- A natural number in decimal, at least one digit; leading zeros change nothing (log entry 7). -/
def parseNat (w : List Char) : Option Nat :=
  if w ≠ [] ∧ w.all Char.isDigit then
    some (w.foldl (fun n c => 10 * n + (c.toNat - '0'.toNat)) 0)
  else none

/-- A name: a word that begins with a letter (log entry 7). -/
def parseName (w : List Char) : Option String :=
  match w with
  | c :: _ => if c.isAlpha then some (String.ofList w) else none
  | [] => none

/-- The bytes of a literal after its `[`, and the tokens after its `]` (R8). -/
def parseBytes : List Token → Option (Buffer × List Token)
  | .word w :: .punct ']' :: ts => (parseByte w).map fun x => ([x], ts)
  | .word w :: .punct ',' :: ts =>
    match parseByte w, parseBytes ts with
    | some x, some (xs, rest) => some (x :: xs, rest)
    | _, _ => none
  | _ => none

/-- One operand and the tokens after it (R40). In `#n` the sign of a negative number is `-` and a
positive one has none: that a leading `+` (as in `#+5`) is bad syntax, where R40 says only "signed
decimal integer", is the model's choice (DESIGN CHOICE, log entry 7). -/
def parseArg : List Token → Option (Arg × List Token)
  | .punct '[' :: .punct ']' :: ts => some (.literal [], ts)
  | .punct '[' :: ts => (parseBytes ts).map fun p => (.literal p.1, p.2)
  | .punct '#' :: .punct '-' :: .word w :: ts => (parseNat w).map fun n => (.amount (-(n : Int)), ts)
  | .punct '#' :: .word w :: ts => (parseNat w).map fun n => (.amount (n : Int), ts)
  | .word w :: ts => (parseName w).map fun n => (.name n, ts)
  | _ => none

/-- Operands separated by commas up to the end of the line; `fuel` bounds their number. -/
def parseArgs : Nat → List Token → Option (List Arg)
  | 0, _ => none
  | fuel + 1, ts =>
    match parseArg ts with
    | none => none
    | some (x, []) => some [x]
    | some (x, .punct ',' :: rest) => (parseArgs fuel rest).map (x :: ·)
    | some (_, _ :: _) => none

/-- One line of text: nothing for a blank line or a comment alone, else the line (R40). -/
def parseLine (text : List Char) : Except AsmError (Option Line) :=
  match lex text [] with
  | none => .error .badSyntax
  | some [] => .ok none
  | some (.word n :: .punct '=' :: .word m :: ts) =>
    match parseName n, parseName m, parseArgs ts.length ts with
    | some name, some mnemonic, some args =>
      .ok (some { name := name, mnemonic := mnemonic, args := args })
    | _, _, _ => .error .badSyntax
  | some _ => .error .badSyntax

/-- The lines of a text, split at newlines. -/
def splitLines : List Char → List (List Char)
  | [] => [[]]
  | c :: cs =>
    if c = '\n' then [] :: splitLines cs
    else
      match splitLines cs with
      | [] => [[c]]
      | l :: ls => (c :: l) :: ls

/-- The lines of a program in text order; blank lines and comments leave none. -/
def parseLines : List (List Char) → Except AsmError (List Line)
  | [] => .ok []
  | t :: ts =>
    match parseLine t, parseLines ts with
    | .ok none, .ok ls => .ok ls
    | .ok (some l), .ok ls => .ok (l :: ls)
    | .error e, _ => .error e
    | _, .error e => .error e

/-- A program's text as its lines (R40). -/
def parseProgram (text : String) : Except AsmError (List Line) :=
  parseLines (splitLines text.toList)

end Sys2Proof.Machine
end

