-- ==== Sys2Proof/Machine/Units.lean ====
section
/-! DEFINITION. Several units side by side (spec/60_exceptions.md rule R74): "They share no state, have
no identifiers, need no start-up order and send each other no interrupts." -/

namespace Sys2Proof.Machine

/-- One step of the unit at place `k`; the others stand still (DEDUCED, log entry 11). A place that
holds no unit has no request to serve. -/
def stepUnit (k : Nat) (us : List State) : Host.Outcome (List State) Fault Refusal :=
  match us[k]? with
  | none => .refused .noRequest
  | some s =>
    match step s with
    | .next t => .next (us.set k t)
    | .fault why => .fault why
    | .refused why => .refused why

/-- The steps of several units in the order of a schedule, which names one place at each turn. -/
def stepUnits : List Nat → List State → Host.Outcome (List State) Fault Refusal
  | [], us => .next us
  | k :: ks, us =>
    match stepUnit k us with
    | .next vs => stepUnits ks vs
    | .fault why => .fault why
    | .refused why => .refused why

end Sys2Proof.Machine
end

