-- ==== Sys2Proof/Machine/Values.lean ====
section
/-! DEFINITION. The integers a buffer stands for (spec/00_scope.md glossary; spec/20_memory.md rules
R24, R26). The meanings work on bytes; these are what the laws R51, R56, R57 and R58 speak of. -/

namespace Sys2Proof.Machine

/-- `vLE(X) = sum over k of X[k] * 256^k`: byte 0 least significant (R24). -/
def vLE : Buffer → Nat
  | [] => 0
  | x :: xs => x.toNat + 256 * vLE xs

/-- `vBE(X) = sum over k of X[k] * 256^(N-1-k)`: byte 0 most significant (R26). -/
def vBE : Buffer → Nat
  | [] => 0
  | x :: xs => x.toNat * 256 ^ xs.length + vBE xs

/-- `LEbytes(v, n)`: the `n`-byte buffer whose `vLE` is `v` (for `v < 256^n`). -/
def leBytes (v : Nat) : Nat → Buffer
  | 0 => []
  | n + 1 => BitVec.ofNat 8 v :: leBytes (v / 256) n

/-- `BEbytes(v, n)`: the `n`-byte buffer whose `vBE` is `v` (for `v < 256^n`). -/
def beBytes (v n : Nat) : Buffer := (leBytes v n).reverse

end Sys2Proof.Machine
end

