-- ==== Sys2Proof/Safety.lean ====
section
/-! DEFINITION. The terms the statements are written in: what a request is answered with, what a
completed request leaves, what a good state is. -/

namespace Sys2Proof.Machine

/-- The unit is one the spec knows and its ports can carry the request (R4, R5, R15). -/
abbrev Presentable (c : Config) (r : Request) : Prop := c.wf = true ∧ r.wf c = true

/-- The state after the request `r`, alone at the head of the queue, got the response `p`: the
parameters as before, the requests behind it as before, the earlier exchanges as before, and `r`
with its operands unchanged beside `p` (R13, R19, R78). -/
def State.after (s : State) (r : Request) (rest : List Request) (p : Response) : State :=
  { config := s.config, requests := rest, exchanges := s.exchanges ++ [⟨r, p⟩] }

/-- The response `exec i` gives a request presented alone to a unit just after reset. -/
def reply (i : Instr) (c : Config) (r : Request) : Option Response :=
  match exec i { config := c, requests := [r], exchanges := [] } with
  | .next t => t.response?
  | _ => none

/-- The response a step gives a request presented alone to a unit just after reset (R31 "the same
responses as when each is presented alone"). -/
def aloneResponse (c : Config) (r : Request) : Option Response :=
  match step { config := c, requests := [r], exchanges := [] } with
  | .next t => t.response?
  | _ => none

/-- The result of a response fits the ports of a unit with the parameters `c`: at most `MAX_BYTES`
bytes, a count of at most `8 * MAX_BYTES` (R4, R7, R67). -/
def Response.fits (c : Config) : Response → Prop
  | .ok (.buf R) => c.maxBytes.allows R.length = true
  | .ok (.bool _) => True
  | .ok (.count C) =>
    match c.maxBytes with
    | .finite m => C ≤ 8 * m
    | .inf => True
  | .fault _ => True

/-- A good state: the parameters are those of a unit, and every completed request was one the ports
can carry, has the response it would get alone (R13, R31, R78) and a result that fits. -/
structure State.Inv (s : State) : Prop where
  config_wf : s.config.wf = true
  presentable : ∀ e ∈ s.exchanges, e.request.wf s.config = true
  own_response : ∀ e ∈ s.exchanges, aloneResponse s.config e.request = some e.response
  fits : ∀ e ∈ s.exchanges, e.response.fits s.config

/-- A safe run so far: no request faulted, the premise R61 asks of a claim about a run. -/
def State.NoFault (s : State) : Prop :=
  ∀ e ∈ s.exchanges, ∀ f, e.response ≠ .fault f

end Sys2Proof.Machine
end

