-- ==== Sys2Proof/Certificates/Slice0/Obligations.lean ====
section
/-! DEFINITION. The statements for the provers. They come from the numbered rules of spec/; a law the
spec itself marks as derived is cited as derived. `s.after r rest p` (Sys2Proof/Safety.lean) is the
state in which the request `r` got the response `p` and nothing else changed. -/

open Sys2Proof Sys2Proof.Machine

/-! ### The command byte and the step -/

/-- R35: the eleven command bytes, each written out as `cmd[7:4] = 0000` and the opcode of the table. -/
def Obligations.WrittenOutCommandBytesDecode : Prop :=
  decode 0b00000000 = .ok .and ∧ decode 0b00000001 = .ok .or ∧ decode 0b00000010 = .ok .xor ∧
  decode 0b00000011 = .ok .not ∧ decode 0b00000100 = .ok .shr ∧ decode 0b00000101 = .ok .shl ∧
  decode 0b00000110 = .ok .rol ∧ decode 0b00000111 = .ok .ror ∧ decode 0b00001000 = .ok .testbit ∧
  decode 0b00001001 = .ok .bit ∧ decode 0b00001010 = .ok .popcnt

/-- The encoder and the decoder agree in both directions (R33, R35, R39): each instruction has
exactly one command byte. -/
def Obligations.DecodeEncodeRoundTrip : Prop :=
  ∀ (i : Instr) (cmd : Byte), decode cmd = .ok i ↔ cmd = encode i

/-- R34, R36, R63: a reserved command byte gets `ILLEGAL_OP`, whatever the operands are, and every
other byte is one of the eleven operations. -/
def Obligations.IllegalCommandFaultsBeforeOperands : Prop :=
  (∀ (s : State) (r : Request) (rest : List Request),
    s.requests = r :: rest → Presentable s.config r →
    (r.cmd.toNat / 16 ≠ 0 ∨ 0xB ≤ r.cmd.toNat % 16) →
    step s = .next (s.after r rest (.fault (.illegalOp r.cmd)))) ∧
  (∀ cmd : Byte, cmd.toNat / 16 = 0 → cmd.toNat % 16 < 0xB → ∃ i, decode cmd = .ok i)

/-- A step on a request the ports can carry is `exec` of the instruction its command byte decodes to.
`exec` itself takes the request off the ports, so the step adds nothing around it. -/
def Obligations.StepRunsDecodedInstruction : Prop :=
  ∀ (s : State) (r : Request) (rest : List Request) (i : Instr),
    s.requests = r :: rest → Presentable s.config r → decode r.cmd = .ok i → step s = exec i s

/-- A command placed with `withFetchWord` is the one the very next step runs (log entry 5, a choice of
the model: the unit has no place to fetch from, R32). -/
def Obligations.FetchWordIsRunNext : Prop :=
  ∀ (s : State) (w : Nat) (i : Instr),
    s.config.wf = true → decodeTableWord 8 w = some i →
    step (s.withFetchWord 8 w) = exec i (s.withFetchWord 8 w) ∧
    ∃ t, exec i (s.withFetchWord 8 w) = .next t

/-- R15: a request within the port bounds is answered, every other one is refused and gets no
response. -/
def Obligations.PortsRefuseExactlyIllFormedRequests : Prop :=
  ∀ (s : State) (r : Request) (rest : List Request),
    s.requests = r :: rest → s.config.wf = true →
    let carried : Prop :=
      (∀ m, s.config.maxBytes = .finite m → r.lenA ≤ m ∧ r.lenB ≤ m) ∧
      (∀ w, s.config.amtW = .finite w → -(2 ^ (w - 1) : Int) ≤ r.amt ∧ r.amt ≤ 2 ^ (w - 1) - 1)
    (carried → ∃ p, step s = .next (s.after r rest p)) ∧
    (¬ carried → step s = .refused .requestNotWellFormed)

/-- R13, R79: every well-formed request completes with a response, and the same request gets the same
response whatever came before it and whatever waits behind it. -/
def Obligations.ResponseDependsOnlyOnRequestAndParameters : Prop :=
  ∀ (s t : State) (r : Request) (restS restT : List Request),
    s.requests = r :: restS → t.requests = r :: restT → s.config = t.config →
    Presentable s.config r →
    ∃ p, step s = .next (s.after r restS p) ∧ step t = .next (t.after r restT p)

/-- The frame of every instruction: where `exec` answers a next state, only the request at the head
left the ports, with one response beside it and its operands as they were (R19); the parameters
(R21), the requests behind it and the earlier exchanges are unchanged. The response is the one the
same request gets alone. -/
def Obligations.EveryInstructionFrame : Prop :=
  ∀ (i : Instr) (s t : State), exec i s = .next t →
    ∃ (r : Request) (p : Response), s.requests = r :: t.requests ∧ t.config = s.config ∧
      t.exchanges = s.exchanges ++ [⟨r, p⟩] ∧ reply i s.config r = some p

/-- The same for a step, an illegal command included: one request, one response, its own (R78). -/
def Obligations.StepAnswersOneRequest : Prop :=
  ∀ s t : State, step s = .next t →
    ∃ (r : Request) (p : Response), s.requests = r :: t.requests ∧ Presentable s.config r ∧
      t.config = s.config ∧ t.exchanges = s.exchanges ++ [⟨r, p⟩] ∧
      aloneResponse s.config r = some p

/-! ### The state of a run -/

/-- Every step keeps the invariant: parameters of a real unit, and every completed request one the
ports can carry, with the response it would get alone and a result that fits `MAX_BYTES`. -/
def Obligations.EveryStepKeepsTheInvariant : Prop :=
  ∀ s t : State, s.Inv → step s = .next t → t.Inv

/-- The invariant holds right after reset, for every choice of the parameters. -/
def Obligations.ResetSatisfiesTheInvariant : Prop :=
  State.reset.Inv ∧ ∀ c : Config, c.wf = true → (State.resetWith c).Inv

/-- R31, R80: a run of well-formed requests, in whatever order they stand, answers all of them, each
with the response it gets when it is presented alone. -/
def Obligations.RunGivesEachRequestItsAloneResponse : Prop :=
  ∀ s : State, s.config.wf = true → (∀ r ∈ s.requests, r.wf s.config = true) →
    ∃ (t : State) (new : List Exchange),
      Host.Core.run Sys2Proof.core s.requests.length s = .next t ∧
      t.config = s.config ∧ t.requests = [] ∧ t.exchanges = s.exchanges ++ new ∧
      new.map Exchange.request = s.requests ∧
      ∀ e ∈ new, aloneResponse s.config e.request = some e.response

/-- R22, R75: after reset no response field holds a value, the parameters are unchanged, and a request
presented after reset gets the response it gets otherwise. That a reset keeps the requests that wait,
so that they are answered after it, is the model's reading of R22 (DEDUCED, log entry 10). -/
def Obligations.ResetLeavesNoResponseAndKeepsParameters : Prop :=
  (∀ c : Config, (State.resetWith c).config = c ∧ (State.resetWith c).readStatus = .error .noResponseYet) ∧
  (∀ s : State,
    let t := s.applyReset
    t.config = s.config ∧ t.requests = s.requests ∧
    t.readStatus = .error .noResponseYet ∧ t.readKind = .error .noResponseYet ∧
    t.readR = .error .noResponseYet ∧ t.readLenR = .error .noResponseYet ∧
    t.readT = .error .noResponseYet ∧ t.readC = .error .noResponseYet ∧
    ∀ (r : Request) (rest : List Request), s.requests = r :: rest → Presentable s.config r →
      ∃ p, step s = .next (s.after r rest p) ∧ step t = .next (t.after r rest p))

/-! ### The response ports and the faults -/

/-- What R17 says a host reads of a response `p` in the state `t`: with status 0 the field `kind` names,
which is `p`'s own result (`T` is `1` for true, R16), and with another status no result field. -/
def Sys2Proof.FieldsReadAs (t : State) : Response → Prop
  | .ok (.buf R) =>
    t.readStatus = .ok 0 ∧ t.readKind = .ok 0 ∧ t.readR = .ok R ∧ t.readLenR = .ok R.length ∧
    t.readT = .error .fieldHoldsNoValue ∧ t.readC = .error .fieldHoldsNoValue
  | .ok (.bool T) =>
    t.readStatus = .ok 0 ∧ t.readKind = .ok 1 ∧
    (t.readT = .ok 1 ↔ T = true) ∧ (t.readT = .ok 0 ↔ T = false) ∧
    t.readR = .error .fieldHoldsNoValue ∧ t.readLenR = .error .fieldHoldsNoValue ∧
    t.readC = .error .fieldHoldsNoValue
  | .ok (.count C) =>
    t.readStatus = .ok 0 ∧ t.readKind = .ok 2 ∧ t.readC = .ok C ∧
    t.readR = .error .fieldHoldsNoValue ∧ t.readLenR = .error .fieldHoldsNoValue ∧
    t.readT = .error .fieldHoldsNoValue
  | .fault _ =>
    (∃ code, t.readStatus = .ok code ∧ code ≠ 0) ∧ t.readKind = .ok 3 ∧
    t.readR = .error .fieldHoldsNoValue ∧ t.readLenR = .error .fieldHoldsNoValue ∧
    t.readT = .error .fieldHoldsNoValue ∧ t.readC = .error .fieldHoldsNoValue

/-- The kind of result R17 gives the operation `i`, where the response is no fault. -/
def Sys2Proof.ResultIsOfItsKind (i : Instr) (p : Response) : Prop :=
  ∀ res, p = .ok res →
    (i ∈ [Instr.and, .or, .xor, .not, .shr, .shl, .rol, .ror, .bit] → ∃ R, res = .buf R) ∧
    (i = .testbit → ∃ T, res = .bool T) ∧ (i = .popcnt → ∃ C, res = .count C)

/-- R17: right after a response is delivered a host reads exactly the result field that `kind` names,
with the response's own value in it, and after a fault none; which field it is depends on the
operation. It is said of every response, of `exec`, and of a step, where a byte that is no
instruction is read as `ILLEGAL_OP`. -/
def Obligations.ExactlyOneResultFieldIsReadable : Prop :=
  (∀ (s : State) (r : Request) (rest : List Request) (p : Response),
    FieldsReadAs (s.after r rest p) p) ∧
  (∀ (i : Instr) (s t : State), exec i s = .next t →
    ∃ (r : Request) (p : Response), s.requests = r :: t.requests ∧ t = s.after r t.requests p ∧
      FieldsReadAs t p ∧ ResultIsOfItsKind i p) ∧
  (∀ s t : State, step s = .next t →
    ∃ (r : Request) (p : Response), s.requests = r :: t.requests ∧ t = s.after r t.requests p ∧
      FieldsReadAs t p ∧ (∀ i, decode r.cmd = .ok i → ResultIsOfItsKind i p) ∧
      ((¬ ∃ i, decode r.cmd = .ok i) → p = .fault (.illegalOp r.cmd) ∧ t.readStatus = .ok 0x1))

/-- R62 to R68: the status of every well-formed request, from its command byte, its lengths, its
amount and the parameters, in the order of priority of R68. -/
def Obligations.StatusTellsTheFault : Prop :=
  ∀ (s : State) (r : Request) (rest : List Request),
    s.requests = r :: rest → Presentable s.config r →
    let illegal : Prop := r.cmd.toNat / 16 ≠ 0 ∨ 0xB ≤ r.cmd.toNat % 16
    let mismatch : Prop := r.cmd ∈ [(0x00 : Byte), 0x01, 0x02] ∧ r.lenA ≠ r.lenB ∧
      s.config.logicLenPolicy = .fault
    let negAmount : Prop := r.cmd ∈ [(0x06 : Byte), 0x07] ∧ r.amt < 0
    let negIndex : Prop := r.cmd = 0x09 ∧ r.amt < 0
    let capacity : Prop := ∃ m, s.config.maxBytes = .finite m ∧
      ((r.cmd = 0x05 ∧ 0 < r.amt ∧ (m : Int) < r.lenA + (r.amt + 7) / 8) ∨
       (r.cmd = 0x09 ∧ 0 ≤ r.amt ∧ (m : Int) < r.amt / 8 + 1))
    ∃ t, step s = .next t ∧
      (illegal → t.readStatus = .ok 0x1) ∧
      (¬ illegal → mismatch → t.readStatus = .ok 0x2) ∧
      (¬ illegal → negAmount → t.readStatus = .ok 0x3) ∧
      (¬ illegal → negIndex → t.readStatus = .ok 0x4) ∧
      (¬ illegal → ¬ mismatch → ¬ negAmount → ¬ negIndex → capacity → t.readStatus = .ok 0x5) ∧
      (¬ illegal → ¬ mismatch → ¬ negAmount → ¬ negIndex → ¬ capacity → t.readStatus = .ok 0x0)

/-- R62, and U17 and U18 of spec/93_implementation_defined.md: no response carries a reserved status
code or a kind that contradicts its status, and a host refuses ports that do. -/
def Obligations.ResponseCodesAreTheTables : Prop :=
  (∀ p : Response, p.status.toNat ≤ 5 ∧ (p.status = 0 ↔ p.kind ≠ 3) ∧
    ∃ st k, readPorts p.status p.kind = .ok (st, k) ∧ st.code = p.status ∧ k.code = p.kind) ∧
  (∀ (status : BitVec 4) (kind : BitVec 2),
    (6 ≤ status.toNat → readPorts status kind = .error .reservedStatus) ∧
    (status.toNat < 6 → ¬ (status = 0 ↔ kind ≠ 3) →
      readPorts status kind = .error .statusKindMismatch))

/-- R14, R37: two requests that agree on the ports an operation reads get the same response. -/
def Obligations.UnreadPortsHaveNoEffect : Prop :=
  ∀ (i : Instr) (c : Config) (r r' : Request),
    (i ∈ [Instr.and, .or, .xor, .not, .shr, .shl, .rol, .ror, .testbit, .popcnt] → r.a = r'.a) →
    (i ∈ [Instr.and, .or, .xor] → r.b = r'.b) →
    (i ∈ [Instr.shr, .shl, .rol, .ror, .testbit, .bit] → r.amt = r'.amt) →
    ∃ p, reply i c r = some p ∧ reply i c r' = some p

/-- R7: with a finite `MAX_BYTES` no operand length, no result length and no count wraps on ports of
the widths the rule gives. -/
def Obligations.LengthsAndCountsFitTheirPorts : Prop :=
  ∀ (s t : State) (m : Nat), s.config.maxBytes = .finite m → step s = .next t →
    (∀ (r : Request) (rest : List Request), s.requests = r :: rest →
      r.lenA < 2 ^ Nat.clog 2 (m + 1) ∧ r.lenB < 2 ^ Nat.clog 2 (m + 1)) ∧
    (∀ n, t.readLenR = .ok n → n ≤ m ∧ n < 2 ^ Nat.clog 2 (m + 1)) ∧
    (∀ n, t.readC = .ok n → n ≤ 8 * m ∧ n < 2 ^ Nat.clog 2 (8 * m + 1))

/-! ### Operands -/

/-- R9: the byte operators as integer operations, and "OR-ing" of two shifted bytes is their sum. -/
def Obligations.ByteShiftsAreTruncatedArithmetic : Prop :=
  (∀ (x : Byte) (n : Nat), n ≤ 8 →
    (shlByte x n).toNat = x.toNat * 2 ^ n % 256 ∧ (shrByte x n).toNat = x.toNat / 2 ^ n ∧
    (~~~ x).toNat = 255 - x.toNat) ∧
  (∀ (x y : Byte) (n : Nat), n ≤ 8 →
    (shlByte x n ||| shrByte y (8 - n)).toNat = (shlByte x n).toNat + (shrByte y (8 - n)).toNat)

/-- R38: the amount is the two's-complement value of the port's `AMT_W` bits, the integer itself when
`AMT_W = INF`, and the integer the host presented whenever the ports can carry it. That an integer
above the signed range is read by its low `AMT_W` bits (the first clause, on a port pattern whose top
bit is 1) is the model's reading (DEDUCED, log entry 8); a step refuses such a request (R15). -/
def Obligations.AmountIsTheSignedPortValue : Prop :=
  ∀ (c : Config) (r : Request),
    (∀ (w : Nat) (port : BitVec w), c.amtW = .finite w → r.amt = (port.toNat : Int) →
      amount c r = port.toInt) ∧
    (c.amtW = .inf → amount c r = r.amt) ∧
    (Presentable c r → amount c r = r.amt)

/-! ### The bitwise logic unit -/

/-- What R42 with one of R43, R44, R45 says of the operation `i` with command byte `cmd` and byte
function `f`. -/
def Sys2Proof.LogicRule (i : Instr) (cmd : Byte) (f : Byte → Byte → Byte) : Prop :=
  decode cmd = .ok i ∧
  ∀ (s : State) (r : Request) (rest : List Request), s.requests = r :: rest →
    (r.lenA = r.lenB ∨ s.config.logicLenPolicy = .zipTruncate →
      ∃ R, exec i s = .next (s.after r rest (.ok (.buf R))) ∧
        R.length = min r.lenA r.lenB ∧
        ∀ (k : Nat) (x y : Byte), r.a[k]? = some x → r.b[k]? = some y → R[k]? = some (f x y)) ∧
    (r.lenA ≠ r.lenB → s.config.logicLenPolicy = .fault →
      exec i s = .next (s.after r rest (.fault (.lengthMismatch r.lenA r.lenB))))

/-- R42 to R45: AND, OR and XOR byte by byte, both length policies, and the fault. -/
def Obligations.AndOrXorResults : Prop :=
  LogicRule .and 0x00 (fun x y => x &&& y) ∧ LogicRule .or 0x01 (fun x y => x ||| y) ∧
  LogicRule .xor 0x02 (fun x y => x ^^^ y)

/-- R46: NOT replaces every byte `x` by `255 - x` and keeps the length. -/
def Obligations.NotResult : Prop :=
  decode 0x03 = .ok .not ∧
  ∀ (s : State) (r : Request) (rest : List Request), s.requests = r :: rest →
    ∃ R, exec .not s = .next (s.after r rest (.ok (.buf R))) ∧ R.length = r.lenA ∧
      ∀ (k : Nat) (x : Byte), r.a[k]? = some x →
        ∃ y, R[k]? = some y ∧ y.toNat = 255 - x.toNat

/-- The corner cases of R43 to R45: an operand with itself, with zero bytes and with `0xff` bytes. -/
def Obligations.LogicIdentities : Prop :=
  ∀ (c : Config) (r : Request),
    (r.b = r.a → reply .and c r = some (.ok (.buf r.a)) ∧ reply .or c r = some (.ok (.buf r.a)) ∧
      reply .xor c r = some (.ok (.buf (List.replicate r.lenA 0)))) ∧
    (r.b = List.replicate r.lenA 0 →
      reply .or c r = some (.ok (.buf r.a)) ∧ reply .xor c r = some (.ok (.buf r.a))) ∧
    (r.b = List.replicate r.lenA 0xff →
      ∃ R, reply .xor c r = some (.ok (.buf R)) ∧ reply .not c r = some (.ok (.buf R)))

/-- R43, corner cases: an AND that answers has at most as many set bits as either operand, under both
policies. -/
def Obligations.AndPopcountAtMostEither : Prop :=
  ∀ (c : Config) (r : Request) (R : Buffer), reply .and c r = some (.ok (.buf R)) →
    ∃ n nA nB, reply .popcnt c { r with a := R } = some (.ok (.count n)) ∧
      reply .popcnt c r = some (.ok (.count nA)) ∧
      reply .popcnt c { r with a := r.b } = some (.ok (.count nB)) ∧ n ≤ min nA nB

/-- R46, corner cases: NOT undoes itself, and the set bits of an operand and of its complement are
`8 * len` together. -/
def Obligations.ComplementLaws : Prop :=
  ∀ (c : Config) (r : Request),
    ∃ R n m, reply .not c r = some (.ok (.buf R)) ∧
      reply .not c { r with a := R } = some (.ok (.buf r.a)) ∧
      reply .popcnt c r = some (.ok (.count n)) ∧
      reply .popcnt c { r with a := R } = some (.ok (.count m)) ∧ m + n = 8 * r.lenA

/-! ### The barrel shifter -/

/-- R47, R48: TRUNC drops the bytes of highest index, PAD appends zero bytes after the last one. -/
def Obligations.TruncAndPadBytes : Prop :=
  ∀ (X : Buffer) (n k : Nat),
    (trunc X n).length = X.length - n ∧ (pad X n).length = X.length + n ∧
    (k < X.length - n → (trunc X n)[k]? = X[k]?) ∧
    (k < X.length → (pad X n)[k]? = X[k]?) ∧
    (X.length ≤ k → k < X.length + n → (pad X n)[k]? = some 0)

/-- R49: SHR byte by byte, for every amount. With `q = floor(i/8)` and `b = i mod 8`, the result has
`max(lenA - q, 0)` bytes, and byte `k` takes the low bits of byte `k+1` of the truncated buffer. -/
def Obligations.ShrResult : Prop :=
  decode 0x04 = .ok .shr ∧
  ∀ (s : State) (r : Request) (rest : List Request), s.requests = r :: rest →
    let i := amount s.config r
    let q := i.toNat / 8
    let b := i.toNat % 8
    ∃ R, exec .shr s = .next (s.after r rest (.ok (.buf R))) ∧
      (i ≤ 0 → R = r.a) ∧
      (0 < i → R.length = r.lenA - q ∧
        ∀ k, k < r.lenA - q →
          R[k]? = some ((r.a.getD k 0 >>> b) |||
            ((if k + 1 < r.lenA - q then r.a.getD (k + 1) 0 else 0) <<< (8 - b))))

/-- R50, R67: SHL byte by byte, for every amount. With `b = i mod 8` the result has
`lenA + ceil(i/8)` bytes, the operand counting as zero beyond its end, and byte `k` takes the top
bits of byte `k-1`; a result longer than a finite `MAX_BYTES` is the fault `CAPACITY`. -/
def Obligations.ShlResult : Prop :=
  decode 0x05 = .ok .shl ∧
  ∀ (s : State) (r : Request) (rest : List Request), s.requests = r :: rest →
    let i := amount s.config r
    let need := r.lenA + (i.toNat + 7) / 8
    let b := i.toNat % 8
    (i ≤ 0 → exec .shl s = .next (s.after r rest (.ok (.buf r.a)))) ∧
    (0 < i → (∃ m, s.config.maxBytes = .finite m ∧ m < need) →
      exec .shl s = .next (s.after r rest (.fault (.capacity need)))) ∧
    (0 < i → (¬ ∃ m, s.config.maxBytes = .finite m ∧ m < need) →
      ∃ R, exec .shl s = .next (s.after r rest (.ok (.buf R))) ∧ R.length = need ∧
        ∀ k, k < need →
          R[k]? = some ((r.a.getD k 0 <<< b) |||
            ((if k = 0 then 0 else r.a.getD (k - 1) 0) >>> (8 - b))))

/-- R51: what the shifter does to the little-endian value. Only the sub-byte remainder scales it. -/
def Obligations.ShifterNetEffect : Prop :=
  ∀ (c : Config) (r : Request) (R : Buffer),
    let i := amount c r
    let V := vLE r.a
    let b := i.toNat % 8
    let N' := r.lenA - i.toNat / 8
    0 < i →
    (reply .shl c r = some (.ok (.buf R)) →
      R = leBytes (V * 2 ^ b) (r.lenA + (i.toNat + 7) / 8) ∧ vLE R = V * 2 ^ b) ∧
    (reply .shr c r = some (.ok (.buf R)) →
      R = leBytes (V % 256 ^ N' / 2 ^ b) N' ∧ vLE R = V % 256 ^ N' / 2 ^ b)

/-- R51, consequences: SHL and then SHR by the same amount. -/
def Obligations.ShlThenShr : Prop :=
  ∀ (c : Config) (r r' : Request) (R R' : Buffer),
    let i := amount c r
    reply .shl c r = some (.ok (.buf R)) → r'.a = R → amount c r' = i →
    reply .shr c r' = some (.ok (.buf R')) →
    (0 < i → i < 8 → R' = r.a ++ [0]) ∧ (0 ≤ i → i % 8 = 0 → R' = r.a)

/-- R52: when two shifts compose to one, and when two left shifts do not. -/
def Obligations.ShiftComposition : Prop :=
  ∀ (c : Config) (r1 r2 r3 : Request) (R1 R2 R3 : Buffer),
    let m := amount c r1
    let n := amount c r2
    0 ≤ m → 0 ≤ n → amount c r3 = m + n → r3.a = r1.a → r2.a = R1 →
    (reply .shl c r1 = some (.ok (.buf R1)) → reply .shl c r2 = some (.ok (.buf R2)) →
      reply .shl c r3 = some (.ok (.buf R3)) →
      (m % 8 = 0 ∨ n % 8 = 0 → R3 = R2) ∧
      (m % 8 ≠ 0 → n % 8 ≠ 0 → vLE r1.a ≠ 0 → R3 ≠ R2)) ∧
    (reply .shr c r1 = some (.ok (.buf R1)) → reply .shr c r2 = some (.ok (.buf R2)) →
      reply .shr c r3 = some (.ok (.buf R3)) →
      m % 8 = 0 ∨ m % 8 + n < 8 → R3 = R2)

/-! ### The rotator -/

/-- R53: "byte `k` of `ROTB(X, n)` is `X[(k + n) mod L]`", for every integer `n`. -/
def Obligations.ByteRotationIsCyclic : Prop :=
  ∀ (X : Buffer) (n : Int),
    (rotb X n).length = X.length ∧
    ∀ k : Nat, k < X.length → (rotb X n)[k]? = X[(((k : Int) + n) % (X.length : Int)).toNat]?

/-- R54, R65: ROL byte by byte, for every amount; a negative one faults. With `q = floor(i/8)` and
`b = i mod 8`, byte `k` is made of the bytes `(k+q) mod L` and `(k+q+1) mod L`. -/
def Obligations.RolResult : Prop :=
  decode 0x06 = .ok .rol ∧
  ∀ (s : State) (r : Request) (rest : List Request), s.requests = r :: rest →
    let i := amount s.config r
    let q := i.toNat / 8
    let b := i.toNat % 8
    (i < 0 → exec .rol s = .next (s.after r rest (.fault (.negAmount i)))) ∧
    (0 ≤ i → ∃ R, exec .rol s = .next (s.after r rest (.ok (.buf R))) ∧ R.length = r.lenA ∧
      ∀ k, k < r.lenA →
        R[k]? = some ((r.a.getD ((k + q) % r.lenA) 0 <<< b) |||
          (r.a.getD ((k + q + 1) % r.lenA) 0 >>> (8 - b))))

/-- R55, R65: ROR byte by byte, for every amount; a negative one faults. Byte `k` is made of the
bytes `(k-q) mod L` and `(k-q-1) mod L`. -/
def Obligations.RorResult : Prop :=
  decode 0x07 = .ok .ror ∧
  ∀ (s : State) (r : Request) (rest : List Request), s.requests = r :: rest →
    let i := amount s.config r
    let q : Int := i / 8
    let b := i.toNat % 8
    (i < 0 → exec .ror s = .next (s.after r rest (.fault (.negAmount i)))) ∧
    (0 ≤ i → ∃ R, exec .ror s = .next (s.after r rest (.ok (.buf R))) ∧ R.length = r.lenA ∧
      ∀ k : Nat, k < r.lenA →
        R[k]? = some ((r.a.getD (((k : Int) - q) % (r.lenA : Int)).toNat 0 >>> b) |||
          (r.a.getD (((k : Int) - q - 1) % (r.lenA : Int)).toNat 0 <<< (8 - b))))

/-- R56: ROL and ROR rotate the `W`-bit big-endian integer of the buffer. -/
def Obligations.RotatorNetEffect : Prop :=
  ∀ (c : Config) (r : Request) (R : Buffer),
    let L := r.lenA
    let W := 8 * L
    let sft := (amount c r).toNat % W
    let V := vBE r.a
    1 ≤ L →
    (reply .rol c r = some (.ok (.buf R)) →
      R = beBytes (((V <<< sft) ||| (V >>> (W - sft))) % 2 ^ W) L ∧
      vBE R = ((V <<< sft) ||| (V >>> (W - sft))) % 2 ^ W) ∧
    (reply .ror c r = some (.ok (.buf R)) →
      R = beBytes (((V >>> sft) ||| (V <<< (W - sft))) % 2 ^ W) L ∧
      vBE R = ((V >>> sft) ||| (V <<< (W - sft))) % 2 ^ W)

/-- R56 (a) and (b): the rotations undo each other, compose by adding amounts, and depend on the
amount modulo `8L` only. -/
def Obligations.RotationsInvertAndCompose : Prop :=
  ∀ (c : Config) (r1 r2 r3 : Request) (R1 R2 R3 : Buffer),
    let m := amount c r1
    let n := amount c r2
    r2.a = R1 → r3.a = r1.a →
    (reply .rol c r1 = some (.ok (.buf R1)) → reply .ror c r2 = some (.ok (.buf R2)) →
      m = n → R2 = r1.a) ∧
    (reply .ror c r1 = some (.ok (.buf R1)) → reply .rol c r2 = some (.ok (.buf R2)) →
      m = n → R2 = r1.a) ∧
    (reply .rol c r1 = some (.ok (.buf R1)) → reply .rol c r2 = some (.ok (.buf R2)) →
      reply .rol c r3 = some (.ok (.buf R3)) →
      amount c r3 % (8 * r1.lenA : Int) = (m + n) % (8 * r1.lenA : Int) → R3 = R2) ∧
    (reply .ror c r1 = some (.ok (.buf R1)) → reply .ror c r2 = some (.ok (.buf R2)) →
      reply .ror c r3 = some (.ok (.buf R3)) →
      amount c r3 % (8 * r1.lenA : Int) = (m + n) % (8 * r1.lenA : Int) → R3 = R2)

/-- R56 (c) and (d): the whole-byte and the sub-byte step of ROL commute, and a rotation keeps the
length and the number of set bits. -/
def Obligations.RotationKeepsBitCountAndLength : Prop :=
  ∀ (c : Config) (r : Request) (R : Buffer),
    (reply .rol c r = some (.ok (.buf R)) →
      R = rotb (rolBuffer r.a ((amount c r).toNat % 8)) ((amount c r).toNat / 8 : Nat)) ∧
    (reply .rol c r = some (.ok (.buf R)) ∨ reply .ror c r = some (.ok (.buf R)) →
      R.length = r.lenA ∧
      ∃ n, reply .popcnt c r = some (.ok (.count n)) ∧
        reply .popcnt c { r with a := R } = some (.ok (.count n)))

/-! ### Bit test, bit set and population count -/

/-- R57: TESTBIT for every index, and "`TESTBIT(A, i) = true` exactly when bit `i` of `vLE(A)` is 1". -/
def Obligations.TestbitResult : Prop :=
  decode 0x08 = .ok .testbit ∧
  ∀ (s : State) (r : Request) (rest : List Request), s.requests = r :: rest →
    let i := amount s.config r
    ∃ T, exec .testbit s = .next (s.after r rest (.ok (.bool T))) ∧
      (i < 0 ∨ (8 * r.lenA : Int) ≤ i → T = false) ∧
      (0 ≤ i → i < (8 * r.lenA : Int) →
        T = (r.a.getD (i.toNat / 8) 0).getLsbD (i.toNat % 8) ∧ T = (vLE r.a).testBit i.toNat)

/-- R58, R66, R67, R68: BIT for every index, with both of its faults and their order. -/
def Obligations.BitResult : Prop :=
  decode 0x09 = .ok .bit ∧
  ∀ (s : State) (r : Request) (rest : List Request), s.requests = r :: rest →
    let i := amount s.config r
    let need := i.toNat / 8 + 1
    (i < 0 → exec .bit s = .next (s.after r rest (.fault (.negIndex i)))) ∧
    (0 ≤ i → (∃ m, s.config.maxBytes = .finite m ∧ m < need) →
      exec .bit s = .next (s.after r rest (.fault (.capacity need)))) ∧
    (0 ≤ i → (¬ ∃ m, s.config.maxBytes = .finite m ∧ m < need) →
      ∃ R, exec .bit s = .next (s.after r rest (.ok (.buf R))) ∧ R.length = need ∧
        ∀ k, k < need → R[k]? = some (if k = i.toNat / 8 then (0x01 : Byte) <<< (i.toNat % 8) else 0))

/-- R58, corner cases: the little-endian value of a BIT result is `2^i`, it has one set bit, and
TESTBIT finds that bit and no other. -/
def Obligations.BitConstructorLaws : Prop :=
  ∀ (c : Config) (r r' : Request) (R : Buffer), reply .bit c r = some (.ok (.buf R)) →
    vLE R = 2 ^ (amount c r).toNat ∧
    reply .popcnt c { r with a := R } = some (.ok (.count 1)) ∧
    (r'.a = R → reply .testbit c r' = some (.ok (.bool (decide (amount c r' = amount c r)))))

/-- R59, R60: POPCNT is the number of set bits, byte by byte and bit by bit, and at most `8 * lenA`. -/
def Obligations.PopcntResult : Prop :=
  decode 0x0A = .ok .popcnt ∧
  ∀ (s : State) (r : Request) (rest : List Request), s.requests = r :: rest →
    ∃ C, exec .popcnt s = .next (s.after r rest (.ok (.count C))) ∧ C ≤ 8 * r.lenA ∧
      C = ∑ k ∈ Finset.range r.lenA, ∑ j ∈ Finset.range 8, ((r.a.getD k 0).getLsbD j).toNat

/-- R24, R60: POPCNT counts the bits that are 1 in the little-endian value, so it agrees with TESTBIT. -/
def Obligations.PopcntCountsBitsOfTheValue : Prop :=
  ∀ (c : Config) (r : Request),
    ∃ C, reply .popcnt c r = some (.ok (.count C)) ∧
      C = ((Finset.range (8 * r.lenA)).filter fun j => (vLE r.a).testBit j).card

/-! ### Several units, and the written form -/

/-- R74: a unit steps whatever stands beside it, as it steps alone, and a request it refuses alone it
refuses there too; a step of one unit leaves every other one as it was; and the steps of two units
commute. -/
def Obligations.UnitsAreIndependent : Prop :=
  (∀ (k : Nat) (us : List State) (s : State), us[k]? = some s →
    (∀ t, step s = .next t → stepUnit k us = .next (us.set k t)) ∧
    (∀ why, step s = .refused why → stepUnit k us = .refused why)) ∧
  (∀ (k : Nat) (us vs : List State), stepUnit k us = .next vs →
    vs.length = us.length ∧ (∀ j, j ≠ k → vs[j]? = us[j]?) ∧
    ∃ s t, us[k]? = some s ∧ step s = .next t ∧ vs[k]? = some t) ∧
  (∀ (j k : Nat) (us vs : List State), j ≠ k →
    (stepUnits [j, k] us = .next vs ↔ stepUnits [k, j] us = .next vs))

/-- R40: a line that assembles is its command byte plus its operands on the ports the operation reads;
the ports it does not read stay as they were and change nothing in the response. A line of the
operation's form whose buffer operands resolve does assemble. A literal stands for its own bytes, a
name for a buffer exactly when its line answered with one, and an amount for none. -/
def Obligations.AssembledLineIsItsRequest : Prop :=
  (∀ (fill : Request) (env : List (String × Response)) (l : Line) (r : Request),
    assemble fill env l = .ok r →
    ∃ i, mnemonicOf l.mnemonic = some i ∧ decode r.cmd = .ok i ∧
      (i ∈ [Instr.and, .or, .xor] → ∃ x y, l.args = [x, y] ∧ resolveBuffer env x = .ok r.a ∧
        resolveBuffer env y = .ok r.b ∧ r.amt = fill.amt) ∧
      (i ∈ [Instr.not, .popcnt] → ∃ x, l.args = [x] ∧ resolveBuffer env x = .ok r.a ∧
        r.b = fill.b ∧ r.amt = fill.amt) ∧
      (i ∈ [Instr.shr, .shl, .rol, .ror, .testbit] → ∃ x, l.args = [x, .amount r.amt] ∧
        resolveBuffer env x = .ok r.a ∧ r.b = fill.b) ∧
      (i = .bit → l.args = [.amount r.amt] ∧ r.a = fill.a ∧ r.b = fill.b) ∧
      (∀ (fill' : Request) (c : Config),
        ∃ r', assemble fill' env l = .ok r' ∧ reply i c r' = reply i c r)) ∧
  (∀ (fill : Request) (env : List (String × Response)) (l : Line) (i : Instr),
    mnemonicOf l.mnemonic = some i →
    (i ∈ [Instr.and, .or, .xor] → ∀ x y a b, l.args = [x, y] →
      resolveBuffer env x = .ok a → resolveBuffer env y = .ok b →
      assemble fill env l = .ok { cmd := encode i, a := a, b := b, amt := fill.amt }) ∧
    (i ∈ [Instr.not, .popcnt] → ∀ x a, l.args = [x] → resolveBuffer env x = .ok a →
      assemble fill env l = .ok { cmd := encode i, a := a, b := fill.b, amt := fill.amt }) ∧
    (i ∈ [Instr.shr, .shl, .rol, .ror, .testbit] → ∀ x n a, l.args = [x, .amount n] →
      resolveBuffer env x = .ok a →
      assemble fill env l = .ok { cmd := encode i, a := a, b := fill.b, amt := n }) ∧
    (i = .bit → ∀ n, l.args = [.amount n] →
      assemble fill env l = .ok { cmd := encode i, a := fill.a, b := fill.b, amt := n })) ∧
  (∀ (env : List (String × Response)) (X Y : Buffer) (n : String) (k : Int),
    resolveBuffer env (.literal X) = .ok X ∧
    (resolveBuffer env (.name n) = .ok Y ↔ env.lookup n = some (.ok (.buf Y))) ∧
    resolveBuffer env (.amount k) ≠ .ok Y)

/-- R41: the words the assembler takes for each operation are its mnemonic of R35 and the aliases of
R41, spelled exactly so, and no others. -/
def Obligations.AliasesEncodeAsTheirMnemonics : Prop :=
  ∀ (m : String) (i : Instr), mnemonicOf m = some i ↔
    m ∈ (match i with
      | .and => ["AND", "and"]
      | .or => ["OR", "or"]
      | .xor => ["XOR", "xor"]
      | .not => ["NOT", "complement"]
      | .shr => ["SHR", "shiftRight", "shiftR"]
      | .shl => ["SHL", "shiftLeft", "shiftL"]
      | .rol => ["ROL", "rotateLeft", "rotateL"]
      | .ror => ["ROR", "rotateRight", "rotateR"]
      | .testbit => ["TESTBIT", "testBit"]
      | .bit => ["BIT", "setBitConstructor", "bit"]
      | .popcnt => ["POPCNT", "popCount"])
end

