-- ==== Sys2Proof/Laws/Buffers.lean ====
section
/-! SUPPORT. Small lemmas about building, reading and extending buffers. -/

namespace Sys2Proof.Machine

theorem build_length (M : Nat) (e : Nat → Byte) : (build M e).length = M := by
  simp [build]

theorem build_getElem? (M : Nat) (e : Nat → Byte) {k : Nat} (h : k < M) :
    (build M e)[k]? = some (e k) := by
  simp [build, h]

theorem byteAt_build (M : Nat) (e : Nat → Byte) (k : Nat) :
    byteAt (build M e) k = if k < M then e k else 0 := by
  by_cases h : k < M
  · simp [byteAt, build_getElem? M e h, h, List.getD_eq_getElem?_getD]
  · simp [byteAt, build, h, List.getD_eq_getElem?_getD]

theorem byteAt_of_le {X : Buffer} {k : Nat} (h : X.length ≤ k) : byteAt X k = 0 := by
  simp [byteAt, List.getD_eq_getElem?_getD, h]

theorem getElem?_eq_byteAt {X : Buffer} {k : Nat} (h : k < X.length) :
    X[k]? = some (byteAt X k) := by
  simp [byteAt, List.getD_eq_getElem?_getD, h]

/-- Two buffers of one length with the same bytes are the same. -/
theorem buffer_ext {X Y : Buffer} (hl : X.length = Y.length)
    (h : ∀ k, k < X.length → byteAt X k = byteAt Y k) : X = Y := by
  apply List.ext_getElem? fun k => ?_
  by_cases hk : k < X.length
  · rw [getElem?_eq_byteAt hk, getElem?_eq_byteAt (hl ▸ hk), h k hk]
  · rw [List.getElem?_eq_none (by omega), List.getElem?_eq_none (by omega)]

theorem zeros_length (n : Nat) : (zeros n).length = n := by simp [zeros]

theorem pad_length (X : Buffer) (n : Nat) : (pad X n).length = X.length + n := by
  simp [pad, zeros]

theorem trunc_length (X : Buffer) (n : Nat) : (trunc X n).length = X.length - n := by
  simp [trunc]

theorem byteAt_pad (X : Buffer) (n k : Nat) : byteAt (pad X n) k = byteAt X k := by
  by_cases h : k < X.length
  · simp [byteAt, pad, List.getD_eq_getElem?_getD, h, List.getElem?_append_left]
  · simp only [byteAt, pad, zeros, List.getD_eq_getElem?_getD,
      List.getElem?_append_right (Nat.not_lt.mp h), List.getElem?_replicate,
      List.getElem?_eq_none (Nat.not_lt.mp h)]
    split <;> rfl

theorem byteAt_trunc (X : Buffer) (n k : Nat) :
    byteAt (trunc X n) k = if k < X.length - n then byteAt X k else 0 := by
  by_cases h : k < X.length - n
  · have hk : k < X.length := by omega
    simp [byteAt, trunc, List.getD_eq_getElem?_getD, h, hk]
  · simp [byteAt, trunc, List.getD_eq_getElem?_getD, h]

theorem rotb_length (X : Buffer) (n : Int) : (rotb X n).length = X.length := by
  unfold rotb
  split
  · simp_all
  · have := Int.emod_nonneg n (b := (X.length : Int)) (by omega)
    have := Int.emod_lt_of_pos n (b := (X.length : Int)) (by omega)
    simp; omega

theorem shrSubByte_length (X : Buffer) (i : Nat) : (shrSubByte X i).length = X.length :=
  build_length _ _

theorem shlSubByte_length (X : Buffer) (i : Nat) : (shlSubByte X i).length = X.length + 1 := by
  unfold shlSubByte
  rw [build_length, pad_length]

theorem shrBuffer_length_le (X : Buffer) (i : Int) : (shrBuffer X i).length ≤ X.length := by
  unfold shrBuffer shrBelow8
  split_ifs <;> simp [shrSubByte_length, trunc_length]

/-- The length SHL gives, the number that CAPACITY compares with MAX_BYTES (R50, R67). -/
theorem shlBuffer_length {X : Buffer} {i : Int} (h : 0 < i) :
    (shlBuffer X i).length = X.length + ceilDiv8 i.toNat := by
  unfold shlBuffer shlBelow8 ceilDiv8
  rw [if_neg (by omega)]
  split_ifs <;> simp only [shlSubByte_length, pad_length] <;> omega

theorem rolBuffer_length (X : Buffer) (i : Nat) : (rolBuffer X i).length = X.length := by
  unfold rolBuffer rolBelow8 rolSubByte
  split_ifs <;> simp [build_length, rotb_length]

theorem rorBuffer_length (X : Buffer) (i : Nat) : (rorBuffer X i).length = X.length := by
  unfold rorBuffer rorBelow8 rorSubByte
  split_ifs <;> simp [build_length, rotb_length]

theorem bitBuffer_length (i : Nat) : (bitBuffer i).length = i / 8 + 1 := by
  simp [bitBuffer, zeros]

theorem complementBuffer_length (X : Buffer) : (complementBuffer X).length = X.length :=
  build_length _ _

theorem pop8_le (x : Byte) : pop8 x ≤ 8 := by
  revert x; decide

theorem popCountOf_cons (x : Byte) (X : Buffer) :
    popCountOf (x :: X) = pop8 x + popCountOf X := by
  simp [popCountOf]

theorem popCountOf_append (X Y : Buffer) :
    popCountOf (X ++ Y) = popCountOf X + popCountOf Y := by
  simp [popCountOf]

theorem popCountOf_le (X : Buffer) : popCountOf X ≤ 8 * X.length := by
  induction X with
  | nil => simp [popCountOf]
  | cons x xs ih => rw [popCountOf_cons, List.length_cons]; have := pop8_le x; omega

end Sys2Proof.Machine
end

