-- ==== Sys2Proof/Laws/Decode.lean ====
section
/-! SUPPORT. The decoder by arithmetic on the command byte. -/

namespace Sys2Proof

theorem rsvField_toNat (cmd : Byte) : (rsvField cmd).toNat = cmd.toNat / 16 := by
  revert cmd; decide

theorem opField_toNat (cmd : Byte) : (opField cmd).toNat = cmd.toNat % 16 := by
  revert cmd; decide

theorem opcode_lt (i : Instr) : (opcode i).toNat < 0xB := by
  cases i <;> decide

theorem encode_toNat (i : Instr) : (encode i).toNat = (opcode i).toNat := by
  cases i <;> decide

end Sys2Proof
end

