-- ==== Sys2Proof/Laws/Operations.lean ====
section
/-! SUPPORT. One lemma per buffer operation that says what its bytes are, for later proofs to cite in
place of unfolding the step rules. -/

namespace Sys2Proof.Machine

/-- `n` exceeds `MAX_BYTES` exactly when that is finite and smaller (R67). -/
theorem exceeds_iff (c : Config) (n : Nat) :
    exceeds c n = true ↔ ∃ m, c.maxBytes = .finite m ∧ m < n := by
  cases h : c.maxBytes <;> simp [exceeds, h, Limit.allows]

/-- Byte `k` of `ROTB(X, n)` (R53). -/
theorem rotb_byteAt (X : Buffer) (n : Int) {k : Nat} (hk : k < X.length) :
    byteAt (rotb X n) k = byteAt X (((k : Int) + n) % (X.length : Int)).toNat := by
  have hL : (X.length : Int) ≠ 0 := by omega
  have hp := Int.emod_nonneg n hL
  have hlt := Int.emod_lt_of_pos n (b := (X.length : Int)) (by omega)
  unfold rotb
  rw [if_neg (by omega)]
  have key : ((k : Int) + n) % (X.length : Int) =
      ((k : Int) + n % (X.length : Int)) % (X.length : Int) := by simp
  rw [key]
  generalize n % (X.length : Int) = d at *
  obtain ⟨d, rfl⟩ := Int.eq_ofNat_of_zero_le hp
  simp only [Int.toNat_natCast] at *
  have : (((k : Int) + d) % (X.length : Int)).toNat = (k + d) % X.length := by
    have : ((k : Int) + d) % (X.length : Int) = (((k + d) % X.length : Nat) : Int) := by
      push_cast; rfl
    rw [this, Int.toNat_natCast]
  rw [this]
  simp only [byteAt, List.getD_eq_getElem?_getD]
  congr 1
  by_cases h : k < X.length - d
  · rw [List.getElem?_append_left (by simpa using h), List.getElem?_drop,
      Nat.mod_eq_of_lt (by omega), Nat.add_comm]
  · rw [List.getElem?_append_right (by simpa using h), List.length_drop,
      List.getElem?_take]
    have : (k + d) % X.length = k - (X.length - d) := by
      rw [Nat.mod_eq_sub_mod (by omega), Nat.mod_eq_of_lt (by omega)]; omega
    rw [this, if_pos (by omega)]

theorem rotb_byteAt_natCast (X : Buffer) (n : Nat) {k : Nat} (hk : k < X.length) :
    byteAt (rotb X n) k = byteAt X ((k + n) % X.length) := by
  rw [rotb_byteAt X n hk]
  have : ((k : Int) + n) % (X.length : Int) = (((k + n) % X.length : Nat) : Int) := by
    push_cast; rfl
  rw [this, Int.toNat_natCast]

theorem rotb_byteAt_neg_natCast (X : Buffer) (n : Nat) {k : Nat} (hk : k < X.length) :
    byteAt (rotb X (-(n : Int))) k = byteAt X (((k : Int) - n) % (X.length : Int)).toNat := by
  rw [rotb_byteAt X _ hk, sub_eq_add_neg]

theorem shiftLeft_eight (x : Byte) : x <<< 8 = 0 := by revert x; decide

theorem shiftRight_eight (x : Byte) : x >>> 8 = 0 := by revert x; decide

theorem shiftRight_none (x : Byte) : x >>> 0 = x := by revert x; decide

theorem shiftLeft_none (x : Byte) : x <<< 0 = x := by revert x; decide

theorem or_zero_byte (x : Byte) : x ||| 0 = x := by revert x; decide

/-- Everything SHR by a positive amount does, in one formula: the whole-byte case is the one with
remainder 0 (R49). -/
theorem shrBuffer_byteAt {X : Buffer} {i : Int} (h : 0 < i) :
    (shrBuffer X i).length = X.length - i.toNat / 8 ∧
    ∀ k < X.length - i.toNat / 8,
      byteAt (shrBuffer X i) k = (byteAt X k >>> (i.toNat % 8)) |||
        ((if k + 1 < X.length - i.toNat / 8 then byteAt X (k + 1) else 0) <<<
          (8 - i.toNat % 8)) := by
  unfold shrBuffer
  rw [if_neg (by omega)]
  by_cases h0 : X.length = 0
  · simp [h0]
  rw [if_neg h0]
  by_cases h8 : 8 ≤ i
  · rw [if_pos h8]
    unfold shrBelow8
    rw [trunc_length]
    by_cases hb : i.toNat % 8 = 0
    · rw [if_pos hb, hb]
      refine ⟨trunc_length _ _, fun k hk => ?_⟩
      rw [byteAt_trunc, if_pos hk, shiftLeft_eight, shiftRight_none, or_zero_byte]
    · rw [if_neg hb]
      by_cases hz : X.length - i.toNat / 8 = 0
      · simp [hz]
      · rw [if_neg hz]
        refine ⟨by rw [shrSubByte_length, trunc_length], fun k hk => ?_⟩
        unfold shrSubByte
        rw [byteAt_build, trunc_length, if_pos hk]
        simp only [byteAt_trunc, hk, if_true, shrByte, shlByte]
        congr 2; split_ifs <;> rfl
  · rw [if_neg h8]
    have e1 : i.toNat / 8 = 0 := by omega
    have e2 : i.toNat % 8 = i.toNat := by omega
    rw [e1, e2]
    refine ⟨shrSubByte_length _ _, fun k hk => ?_⟩
    unfold shrSubByte
    rw [byteAt_build, if_pos (by omega)]; rfl

/-- The bytes SHL by a positive amount gives (R50). -/
theorem shlBuffer_byteAt {X : Buffer} {i : Int} (h : 0 < i) :
    ∀ k < X.length + (i.toNat + 7) / 8,
      byteAt (shlBuffer X i) k = (byteAt X k <<< (i.toNat % 8)) |||
        ((if k = 0 then 0 else byteAt X (k - 1)) >>> (8 - i.toNat % 8)) := by
  intro k hk
  have sub : ∀ (Y : Buffer) (b : Nat), k < Y.length + 1 →
      byteAt (shlSubByte Y b) k =
        (byteAt Y k <<< b) ||| ((if k = 0 then 0 else byteAt Y (k - 1)) >>> (8 - b)) := by
    intro Y b hk
    unfold shlSubByte
    rw [byteAt_build, pad_length, if_pos hk]
    simp only [byteAt_pad, shrByte, shlByte]
    congr 2; split_ifs <;> first | rfl | omega
  unfold shlBuffer
  rw [if_neg (by omega)]
  by_cases h8 : 8 ≤ i
  · rw [if_pos h8]
    unfold shlBelow8
    by_cases hb : i.toNat % 8 = 0
    · rw [if_pos hb, hb, byteAt_pad, shiftRight_eight, shiftLeft_none, or_zero_byte]
    · rw [if_neg hb, sub _ _ (by rw [pad_length]; omega)]
      simp only [byteAt_pad]
  · rw [if_neg h8]
    have e2 : i.toNat % 8 = i.toNat := by omega
    rw [e2, sub _ _ (by omega)]

/-- The bytes ROL gives, for every amount (R54). -/
theorem rolBuffer_byteAt (X : Buffer) (i : Nat) {k : Nat} (hk : k < X.length) :
    byteAt (rolBuffer X i) k = (byteAt X ((k + i / 8) % X.length) <<< (i % 8)) |||
      (byteAt X ((k + i / 8 + 1) % X.length) >>> (8 - i % 8)) := by
  have sub : ∀ (Y : Buffer) (b : Nat), k < Y.length →
      byteAt (rolSubByte Y b) k =
        (byteAt Y k <<< b) ||| (byteAt Y ((k + 1) % Y.length) >>> (8 - b)) := by
    intro Y b h
    unfold rolSubByte
    rw [byteAt_build, if_pos h]
    have := rotb_byteAt_natCast Y 1 h
    simp only [Nat.cast_one] at this
    simp only [this, shlByte, shrByte]
  unfold rolBuffer rolBelow8
  by_cases h0 : i = 0
  · subst h0; simp [shiftRight_eight, Nat.mod_eq_of_lt hk]
  rw [if_neg h0]
  by_cases h8 : 8 ≤ i
  · rw [if_pos h8]
    have hL : (k + 1) % X.length < X.length := Nat.mod_lt _ (by omega)
    have e : ((k + 1) % X.length + i / 8) % X.length = (k + i / 8 + 1) % X.length := by
      rw [Nat.mod_add_mod]; congr 1; omega
    by_cases hb : i % 8 = 0
    · rw [if_pos hb, hb, rotb_byteAt_natCast X _ hk, shiftLeft_none, shiftRight_eight,
        or_zero_byte]
    · rw [if_neg hb, sub _ _ (by rw [rotb_length]; exact hk), rotb_length,
        rotb_byteAt_natCast X _ hk, rotb_byteAt_natCast X _ hL, e]
  · rw [if_neg h8, sub _ _ hk]
    have e1 : i / 8 = 0 := by omega
    have e2 : i % 8 = i := by omega
    simp only [e1, e2, Nat.add_zero]; rw [Nat.mod_eq_of_lt hk]

/-- The remainder as a natural number below a positive divisor (R10). -/
theorem emod_toNat (k : Int) (L : Nat) (h : 0 < L) :
    ((k % (L : Int)).toNat : Int) = k % (L : Int) ∧ (k % (L : Int)).toNat < L := by
  have h1 := Int.emod_nonneg k (b := (L : Int)) (by omega)
  have h2 := Int.emod_lt_of_pos k (b := (L : Int)) (by omega)
  omega

/-- The bytes ROR gives, for every amount (R55). -/
theorem rorBuffer_byteAt (X : Buffer) (i : Nat) {k : Nat} (hk : k < X.length) :
    byteAt (rorBuffer X i) k =
      (byteAt X (((k : Int) - (i / 8 : Nat)) % (X.length : Int)).toNat >>> (i % 8)) |||
      (byteAt X (((k : Int) - (i / 8 : Nat) - 1) % (X.length : Int)).toNat <<< (8 - i % 8)) := by
  have sub : ∀ (Y : Buffer) (b : Nat), k < Y.length →
      byteAt (rorSubByte Y b) k =
        (byteAt Y k >>> b) ||| (byteAt Y (((k : Int) - 1) % (Y.length : Int)).toNat <<< (8 - b)) := by
    intro Y b h
    unfold rorSubByte
    rw [byteAt_build, if_pos h]
    simp only [rotb_byteAt Y (-1) h, shlByte, shrByte, sub_eq_add_neg]
  have hkk : ((k:Int) % (X.length:Int)).toNat = k := by
    rw [Int.emod_eq_of_lt (by omega) (by omega)]; simp
  unfold rorBuffer rorBelow8
  by_cases h0 : i = 0
  · subst h0; simp [hkk]
  rw [if_neg h0]
  by_cases h8 : 8 ≤ i
  · rw [if_pos h8]
    obtain ⟨c1, hL⟩ := emod_toNat ((k:Int) - 1) X.length (by omega)
    have e : ((((k : Int) - 1) % (X.length : Int)).toNat - (i / 8 : Nat) : Int) % (X.length : Int) =
        ((k : Int) - (i / 8 : Nat) - 1) % (X.length : Int) := by
      rw [c1, Int.emod_sub_emod]; congr 1; omega
    by_cases hb : i % 8 = 0
    · rw [if_pos hb, hb, rotb_byteAt_neg_natCast X _ hk, shiftRight_none, shiftLeft_eight,
        or_zero_byte]
    · rw [if_neg hb, sub _ _ (by rw [rotb_length]; exact hk), rotb_length,
        rotb_byteAt_neg_natCast X _ hk, rotb_byteAt_neg_natCast X _ hL, e]
  · rw [if_neg h8, sub _ _ hk]
    have e1 : i / 8 = 0 := by omega
    have e2 : i % 8 = i := by omega
    rw [e1, e2]; simp [hkk]

/-- The bytes BIT gives (R58). -/
theorem bitBuffer_byteAt (i k : Nat) :
    byteAt (bitBuffer i) k = if k = i / 8 then shlByte 1 (i % 8) else 0 := by
  simp only [bitBuffer, byteAt, zeros, List.getD_eq_getElem?_getD, List.getElem?_set,
    List.length_replicate, List.getElem?_replicate]
  split_ifs <;> first | rfl | omega

/-- A buffer is what its bytes build (R12). -/
theorem build_byteAt (X : Buffer) : build X.length (byteAt X) = X := by
  apply buffer_ext (build_length _ _)
  intro k hk; rw [build_length] at hk; simp [byteAt_build, hk]

/-- The set bits of a built buffer, byte by byte. -/
theorem popCountOf_build (M : Nat) (e : Nat → Byte) :
    popCountOf (build M e) = ∑ k ∈ Finset.range M, pop8 (e k) := by
  induction M with
  | zero => rfl
  | succ n ih =>
    rw [Finset.sum_range_succ, ← ih]
    simp [popCountOf, build, List.range_succ]

/-- POPCNT as the sum R60 writes. -/
theorem popCountOf_eq_sum (X : Buffer) :
    popCountOf X = ∑ k ∈ Finset.range X.length, pop8 (byteAt X k) := by
  conv_lhs => rw [← build_byteAt X]
  exact popCountOf_build _ _

/-! The unrolled definitions satisfy the recursive calls of the rules' pseudocode. -/

/-- "if i >= 8: return SHR(TRUNC(X, floor(i/8)), i mod 8)" (R49). -/
theorem shrBuffer_recursion {X : Buffer} {i : Int} (hX : X.length ≠ 0) (h : 8 ≤ i) :
    shrBuffer X i = shrBuffer (trunc X (i.toNat / 8)) ((i.toNat % 8 : Nat) : Int) := by
  have hb : i.toNat % 8 < 8 := Nat.mod_lt _ (by omega)
  have h0 : ¬ i ≤ 0 := by omega
  have h8 : ¬ (8 : Int) ≤ ((i.toNat % 8 : Nat) : Int) := by omega
  rw [shrBuffer, if_neg h0, if_neg hX, if_pos h, shrBuffer, if_neg h8, shrBelow8]
  by_cases hz : i.toNat % 8 = 0
  · rw [if_pos hz, if_pos (by omega)]
  · rw [if_neg hz, if_neg (show ¬ ((i.toNat % 8 : Nat) : Int) ≤ 0 by omega), Int.toNat_natCast]

/-- "if i >= 8: return SHL(PAD(X, floor(i/8)), i mod 8)" (R50). -/
theorem shlBuffer_recursion {X : Buffer} {i : Int} (h : 8 ≤ i) :
    shlBuffer X i = shlBuffer (pad X (i.toNat / 8)) ((i.toNat % 8 : Nat) : Int) := by
  have hb : i.toNat % 8 < 8 := Nat.mod_lt _ (by omega)
  have h0 : ¬ i ≤ 0 := by omega
  have h8 : ¬ (8 : Int) ≤ ((i.toNat % 8 : Nat) : Int) := by omega
  rw [shlBuffer, if_neg h0, if_pos h, shlBuffer, if_neg h8, shlBelow8]
  by_cases hz : i.toNat % 8 = 0
  · rw [if_pos hz, if_pos (by omega)]
  · rw [if_neg hz, if_neg (by omega), Int.toNat_natCast]

/-- "if i >= 8: return ROL(ROTB(X, floor(i/8)), i mod 8)" (R54). -/
theorem rolBuffer_recursion {X : Buffer} {i : Nat} (h : 8 ≤ i) :
    rolBuffer X i = rolBuffer (rotb X ((i / 8 : Nat) : Int)) (i % 8) := by
  have h8 : ¬ 8 ≤ i % 8 := by omega
  rw [rolBuffer, if_neg (by omega), if_pos h, rolBuffer, if_neg h8, rolBelow8]

/-- "if i >= 8: return ROR(ROTB(X, -floor(i/8)), i mod 8)" (R55). -/
theorem rorBuffer_recursion {X : Buffer} {i : Nat} (h : 8 ≤ i) :
    rorBuffer X i = rorBuffer (rotb X (-((i / 8 : Nat) : Int))) (i % 8) := by
  have h8 : ¬ 8 ≤ i % 8 := by omega
  rw [rorBuffer, if_neg (by omega), if_pos h, rorBuffer, if_neg h8, rorBelow8]

end Sys2Proof.Machine
end

