-- ==== Sys2Proof/Laws/State.lean ====
section
/-! SUPPORT. One lemma per field and per update of State, each true by rfl. -/

namespace Sys2Proof.Machine

variable (s : State) (r : Request) (rest : List Request) (p : Response) (res : Result)
  (f : UnitFault) (c : Config) (cmd : Byte)

@[simp] theorem State.resetWith_config : (State.resetWith c).config = c := rfl
@[simp] theorem State.resetWith_requests : (State.resetWith c).requests = [] := rfl
@[simp] theorem State.resetWith_exchanges : (State.resetWith c).exchanges = [] := rfl
@[simp] theorem State.reset_config : State.reset.config = Config.standard := rfl
@[simp] theorem State.reset_requests : State.reset.requests = [] := rfl
@[simp] theorem State.reset_exchanges : State.reset.exchanges = [] := rfl

@[simp] theorem State.present_config : (s.present r).config = s.config := rfl
@[simp] theorem State.present_requests : (s.present r).requests = s.requests ++ [r] := rfl
@[simp] theorem State.present_exchanges : (s.present r).exchanges = s.exchanges := rfl

@[simp] theorem State.deliver_config : (s.deliver r p).config = s.config := rfl
@[simp] theorem State.deliver_requests : (s.deliver r p).requests = s.requests.tail := rfl
@[simp] theorem State.deliver_exchanges :
    (s.deliver r p).exchanges = s.exchanges ++ [⟨r, p⟩] := rfl

@[simp] theorem State.applyReset_config : s.applyReset.config = s.config := rfl
@[simp] theorem State.applyReset_requests : s.applyReset.requests = s.requests := rfl
@[simp] theorem State.applyReset_exchanges : s.applyReset.exchanges = [] := rfl

@[simp] theorem State.withCommand_config : (s.withCommand cmd).config = s.config := rfl
@[simp] theorem State.withCommand_exchanges : (s.withCommand cmd).exchanges = s.exchanges := rfl

@[simp] theorem State.after_config : (s.after r rest p).config = s.config := rfl
@[simp] theorem State.after_requests : (s.after r rest p).requests = rest := rfl
@[simp] theorem State.after_exchanges :
    (s.after r rest p).exchanges = s.exchanges ++ [⟨r, p⟩] := rfl

@[simp] theorem State.response?_deliver : (s.deliver r p).response? = some p := by
  simp [State.response?]

@[simp] theorem State.response?_after : (s.after r rest p).response? = some p := by
  simp [State.response?]

end Sys2Proof.Machine
end

