-- ==== Sys2Proof/Laws/Ops.lean ====
section
/-! SUPPORT. What the shared operations do, one lemma each: delivering, serving, accepting, and the
inversion of `exec` and `step` that later proofs cite instead of unfolding them. -/

namespace Sys2Proof.Machine

variable {s t : State} {r : Request} {rest : List Request} {p : Response}

/-- The response a reply is delivered as. -/
def toResponse : Reply → Response
  | .ok res => .ok res
  | .error f => .fault f

theorem deliver_eq_after (h : s.requests = r :: rest) (p : Response) :
    s.deliver r p = s.after r rest p := by
  simp [State.deliver, State.after, h]

/-- Serving a request that is there answers it, whatever the meaning replies. -/
theorem serve_cons (h : s.requests = r :: rest) (m : Config → Request → Reply) :
    s.serve m = .next (s.after r rest (toResponse (m s.config r))) := by
  unfold State.serve
  rw [h]
  cases hm : m s.config r <;>
    simp [toResponse, hm, State.complete, State.raise, deliver_eq_after h]

theorem serve_nil (h : s.requests = []) (m : Config → Request → Reply) :
    s.serve m = .refused .noRequest := by
  unfold State.serve
  rw [h]

/-- The reply of an instruction as a function of the parameters and the request. -/
def replyOf : Instr → Config → Request → Reply
  | .and => andReply
  | .or => orReply
  | .xor => xorReply
  | .not => notReply
  | .shr => shrReply
  | .shl => shlReply
  | .rol => rolReply
  | .ror => rorReply
  | .testbit => testbitReply
  | .bit => bitReply
  | .popcnt => popcntReply

theorem exec_eq_serve (i : Instr) (s : State) : exec i s = s.serve (replyOf i) := by
  cases i <;> rfl

theorem exec_cons (h : s.requests = r :: rest) (i : Instr) :
    exec i s = .next (s.after r rest (toResponse (replyOf i s.config r))) := by
  rw [exec_eq_serve, serve_cons h]

/-- Everything `exec` can do where it answers a next state. -/
theorem exec_cases {i : Instr} (h : exec i s = .next t) :
    ∃ r rest, s.requests = r :: rest ∧
      t = s.after r rest (toResponse (replyOf i s.config r)) := by
  rw [exec_eq_serve] at h
  cases hs : s.requests with
  | nil => simp [serve_nil hs] at h
  | cons r rest =>
    rw [serve_cons hs] at h
    exact ⟨r, rest, rfl, by simpa using h.symm⟩

theorem reply_eq (i : Instr) (c : Config) (r : Request) :
    reply i c r = some (toResponse (replyOf i c r)) := by
  unfold reply
  rw [exec_cons (r := r) (rest := []) rfl]
  simp

/-- A request is accepted exactly when it is there and `Presentable`. -/
theorem accept_cons (h : s.requests = r :: rest) (hp : Presentable s.config r) :
    s.accept = .ok r := by
  unfold State.accept
  rw [h]
  simp [hp.1, hp.2]

theorem accept_ok (h : s.accept = .ok r) :
    ∃ rest, s.requests = r :: rest ∧ Presentable s.config r := by
  unfold State.accept at h
  cases hs : s.requests with
  | nil => simp [hs] at h
  | cons q rest =>
    rw [hs] at h
    by_cases hc : s.config.wf = true <;> by_cases hq : q.wf s.config = true <;>
      simp [hc, hq] at h
    exact ⟨rest, by rw [h], hc, h ▸ hq⟩

/-- The response of a step, as a function of the parameters and the request. -/
def stepResponse (c : Config) (r : Request) : Response :=
  match decode r.cmd with
  | .error _ => .fault (.illegalOp r.cmd)
  | .ok i => toResponse (replyOf i c r)

theorem step_cons (h : s.requests = r :: rest) (hp : Presentable s.config r) :
    step s = .next (s.after r rest (stepResponse s.config r)) := by
  unfold step stepResponse
  rw [accept_cons h hp]
  cases hd : decode r.cmd with
  | error e => simp [hd, State.illegalCommand, State.raise, deliver_eq_after h]
  | ok i => simp [hd, exec_cons h]

/-- Everything a step can do where it answers a next state. -/
theorem step_cases (h : step s = .next t) :
    ∃ r rest, s.requests = r :: rest ∧ Presentable s.config r ∧
      t = s.after r rest (stepResponse s.config r) := by
  cases ha : s.accept with
  | error why => simp [step, ha] at h
  | ok r =>
    obtain ⟨rest, hs, hp⟩ := accept_ok ha
    rw [step_cons hs hp] at h
    exact ⟨r, rest, hs, hp, by simpa using h.symm⟩

/-- A step never stops with a fault: the unit's faults are responses (R61). -/
theorem step_ne_fault (s : State) (why : Fault) : step s ≠ .fault why := by
  cases ha : s.accept with
  | error e => simp [step, ha]
  | ok r =>
    obtain ⟨rest, hs, hp⟩ := accept_ok ha
    simp [step_cons hs hp]

theorem aloneResponse_eq {c : Config} {r : Request} (hp : Presentable c r) :
    aloneResponse c r = some (stepResponse c r) := by
  unfold aloneResponse
  rw [step_cons (r := r) (rest := []) rfl hp]
  simp

/-- A request with empty operands and amount 0 fits the ports of every unit. -/
theorem bareRequest_wf (c : Config) (cmd : Byte) : (bareRequest cmd).wf c = true := by
  have h : ∀ n : Nat, (1 : Int) ≤ 2 ^ (n - 1) := fun n => by
    have h0 : (0 : Int) < 2 ^ (n - 1) := by positivity
    exact h0
  rcases c with ⟨m | _, w | _, p⟩ <;>
    simp [bareRequest, Request.wf, Limit.allows, Limit.carries, Request.lenA, Request.lenB, h]

/-- After `withCommand` the head of the queue carries the command and fits the ports. -/
theorem withCommand_head (s : State) (cmd : Byte) :
    ∃ r rest, (s.withCommand cmd).requests = r :: rest ∧ r.wf s.config = true ∧ r.cmd = cmd := by
  cases hs : s.requests with
  | nil => exact ⟨bareRequest cmd, [], by simp [State.withCommand, hs], bareRequest_wf _ _, rfl⟩
  | cons q rest =>
    by_cases hq : q.wf s.config = true
    · exact ⟨{ q with cmd := cmd }, rest, by simp [State.withCommand, hs, hq], hq, rfl⟩
    · exact ⟨bareRequest cmd, rest, by simp [State.withCommand, hs, hq], bareRequest_wf _ _, rfl⟩

/-- The host's read of a field right after a response. -/
@[simp] theorem readField_after {α : Type} (s : State) (r : Request) (rest : List Request) (p : Response)
    (field : Response → Option α) :
    (s.after r rest p).readField field =
      match field p with
      | none => .error .fieldHoldsNoValue
      | some v => .ok v := by
  cases h : field p <;> simp [State.readField, h]

@[simp] theorem readStatus_after : (s.after r rest p).readStatus = .ok p.status := by
  simp [State.readStatus]

@[simp] theorem readKind_after : (s.after r rest p).readKind = .ok p.kind := by
  simp [State.readKind]

theorem readField_no_response {α : Type} (h : s.exchanges = []) (field : Response → Option α) :
    s.readField field = .error .noResponseYet := by
  simp [State.readField, State.response?, h]

/-- Everything a step of one unit among several can do where it answers. -/
theorem stepUnit_cases {k : Nat} {us vs : List State} (h : stepUnit k us = .next vs) :
    ∃ s t, us[k]? = some s ∧ step s = .next t ∧ vs = us.set k t := by
  unfold stepUnit at h
  cases hk : us[k]? with
  | none => simp [hk] at h
  | some s =>
    cases hs : step s <;> simp [hk, hs] at h
    exact ⟨s, _, rfl, hs, h.symm⟩

end Sys2Proof.Machine
end

