-- ==== Sys2Proof/Laws/PerInstr.lean ====
section
/-! SUPPORT. One family of per-instruction lemmas, Encoding: the command byte of an instruction has
the fields of R33 and is read back from the opcode table's numbering. -/

/-- What is said of every instruction: `cmd[7:4] = 0000`, `cmd[3:0]` its opcode below `0xB`, and the
table word of that byte is the instruction (R33, R35). -/
def Sys2Proof.Laws.Encoding.Statement (i : Sys2Proof.Instr) : Prop :=
  Sys2Proof.rsvField (Sys2Proof.encode i) = 0 ∧
  Sys2Proof.opField (Sys2Proof.encode i) = Sys2Proof.opcode i ∧
  (Sys2Proof.opcode i).toNat < 0xB ∧
  Sys2Proof.decodeTableWord 8 (Sys2Proof.encode i).toNat = some i

theorem Sys2Proof.Laws.Encoding.and : Sys2Proof.Laws.Encoding.Statement .and := by
  unfold Sys2Proof.Laws.Encoding.Statement; decide
theorem Sys2Proof.Laws.Encoding.or : Sys2Proof.Laws.Encoding.Statement .or := by
  unfold Sys2Proof.Laws.Encoding.Statement; decide
theorem Sys2Proof.Laws.Encoding.xor : Sys2Proof.Laws.Encoding.Statement .xor := by
  unfold Sys2Proof.Laws.Encoding.Statement; decide
theorem Sys2Proof.Laws.Encoding.not : Sys2Proof.Laws.Encoding.Statement .not := by
  unfold Sys2Proof.Laws.Encoding.Statement; decide
theorem Sys2Proof.Laws.Encoding.shr : Sys2Proof.Laws.Encoding.Statement .shr := by
  unfold Sys2Proof.Laws.Encoding.Statement; decide
theorem Sys2Proof.Laws.Encoding.shl : Sys2Proof.Laws.Encoding.Statement .shl := by
  unfold Sys2Proof.Laws.Encoding.Statement; decide
theorem Sys2Proof.Laws.Encoding.rol : Sys2Proof.Laws.Encoding.Statement .rol := by
  unfold Sys2Proof.Laws.Encoding.Statement; decide
theorem Sys2Proof.Laws.Encoding.ror : Sys2Proof.Laws.Encoding.Statement .ror := by
  unfold Sys2Proof.Laws.Encoding.Statement; decide
theorem Sys2Proof.Laws.Encoding.testbit : Sys2Proof.Laws.Encoding.Statement .testbit := by
  unfold Sys2Proof.Laws.Encoding.Statement; decide
theorem Sys2Proof.Laws.Encoding.bit : Sys2Proof.Laws.Encoding.Statement .bit := by
  unfold Sys2Proof.Laws.Encoding.Statement; decide
theorem Sys2Proof.Laws.Encoding.popcnt : Sys2Proof.Laws.Encoding.Statement .popcnt := by
  unfold Sys2Proof.Laws.Encoding.Statement; decide
end

