-- ==== Sys2Proof/Laws/Values.lean ====
section
/-! SUPPORT. The little-endian and big-endian values of a buffer, bit by bit. -/

namespace Sys2Proof.Machine

theorem vLE_lt (X : Buffer) : vLE X < 256 ^ X.length := by
  induction X with
  | nil => simp [vLE]
  | cons x xs ih =>
    have := x.isLt
    simp only [vLE, List.length_cons, Nat.pow_succ]
    omega

theorem leBytes_length (v n : Nat) : (leBytes v n).length = n := by
  induction n generalizing v with
  | zero => rfl
  | succ n ih => simp [leBytes, ih]

theorem vLE_leBytes {v n : Nat} (h : v < 256 ^ n) : vLE (leBytes v n) = v := by
  induction n generalizing v with
  | zero => simp at h; simp [leBytes, vLE, h]
  | succ n ih =>
    have : v / 256 < 256 ^ n := by
      rw [Nat.div_lt_iff_lt_mul (by omega)]; rwa [Nat.pow_succ] at h
    simp only [leBytes, vLE, ih this, BitVec.toNat_ofNat]
    omega

theorem leBytes_vLE (X : Buffer) : leBytes (vLE X) X.length = X := by
  induction X with
  | nil => rfl
  | cons x xs ih =>
    have := x.isLt
    have hd : (x.toNat + 256 * vLE xs) / 256 = vLE xs := by omega
    have hm : BitVec.ofNat 8 (x.toNat + 256 * vLE xs) = x := by
      apply BitVec.eq_of_toNat_eq; simp; omega
    simp only [vLE, List.length_cons, leBytes, hd, ih, hm]

/-- A buffer is determined by its length and its little-endian value. -/
theorem eq_of_vLE {X Y : Buffer} (hl : X.length = Y.length) (hv : vLE X = vLE Y) : X = Y := by
  rw [← leBytes_vLE X, ← leBytes_vLE Y, hl, hv]

/-- Bit `j` of `vLE X` is bit `j mod 8` of byte `floor(j/8)` (R23, R24). -/
theorem vLE_testBit (X : Buffer) (j : Nat) :
    (vLE X).testBit j = (byteAt X (j / 8)).getLsbD (j % 8) := by
  induction X generalizing j with
  | nil => simp [vLE, byteAt]
  | cons x xs ih =>
    have hx := x.isLt
    have e : x.toNat + 256 * vLE xs = 2 ^ 8 * vLE xs + x.toNat := by omega
    rw [vLE, e, Nat.testBit_two_pow_mul_add _ hx]
    by_cases hj : j < 8
    · simp [hj, byteAt, Nat.div_eq_of_lt hj, Nat.mod_eq_of_lt hj, BitVec.getLsbD]
    · rw [if_neg hj, ih]
      have h1 : j / 8 = (j - 8) / 8 + 1 := by omega
      have h2 : j % 8 = (j - 8) % 8 := by omega
      rw [h1, h2]
      simp [byteAt]

theorem vLE_append (X Y : Buffer) : vLE (X ++ Y) = vLE X + 256 ^ X.length * vLE Y := by
  induction X with
  | nil => simp [vLE]
  | cons x xs ih => simp only [List.cons_append, vLE, ih, List.length_cons, Nat.pow_succ]; ring

/-- The two values are mirror images. -/
theorem vBE_eq_vLE_reverse (X : Buffer) : vBE X = vLE X.reverse := by
  induction X with
  | nil => rfl
  | cons x xs ih =>
    rw [List.reverse_cons, vLE_append, ← ih]
    simp [vBE, vLE]; ring

theorem vBE_lt (X : Buffer) : vBE X < 256 ^ X.length := by
  rw [vBE_eq_vLE_reverse]; simpa using vLE_lt X.reverse

theorem byteAt_reverse {X : Buffer} {k : Nat} (h : k < X.length) :
    byteAt X.reverse k = byteAt X (X.length - 1 - k) := by
  have h' : X.length - 1 - k < X.length := by omega
  simp [byteAt, List.getD_eq_getElem?_getD, h, h']

theorem vBE_beBytes {v n : Nat} (h : v < 256 ^ n) : vBE (beBytes v n) = v := by
  rw [vBE_eq_vLE_reverse, beBytes, List.reverse_reverse, vLE_leBytes h]

theorem beBytes_vBE (X : Buffer) : beBytes (vBE X) X.length = X := by
  rw [vBE_eq_vLE_reverse, beBytes, ← List.length_reverse, leBytes_vLE, List.reverse_reverse]

end Sys2Proof.Machine
end

