-- ==== Sys2Proof/Tests/Slice0.lean ====
section
/-! SUPPORT. Tests. Expected results are the rows of spec/95_test_vectors.md (named in the comment of
each test) or worked out by hand from the rule named; none is the model's own answer. The second half
holds the witnesses: concrete states and operands that meet the hypotheses of each statement, one for
each of its clauses. -/

namespace Sys2Proof.Tests

open Sys2Proof Sys2Proof.Machine

/-! ### Helpers -/

/-- The parameters of spec/95_test_vectors.md where a row names none. -/
def std : Config := Config.standard
/-- `LOGIC_LEN_POLICY = ZIP_TRUNCATE`. -/
def zip : Config := { std with logicLenPolicy := .zipTruncate }
/-- `MAX_BYTES = 2`, with an 8-bit amount port. -/
def small : Config := { maxBytes := .finite 2, amtW := .finite 8, logicLenPolicy := .fault }
/-- The request with `cmd`, `A`, `B` and `AMT` in this order. -/
def rq (cmd : Byte) (a b : Buffer) (amt : Int) : Request := { cmd := cmd, a := a, b := b, amt := amt }
/-- A state with one request on the ports. -/
def st (c : Config) (r : Request) : State := { config := c, requests := [r], exchanges := [] }

/-! ### Well-formedness: each check refuses an ill-formed term -/

theorem test_wf_maxBytes_zero : Config.wf { std with maxBytes := .finite 0 } = false := by decide
theorem test_wf_maxBytes_one : Config.wf { std with maxBytes := .finite 1 } = true := by decide
theorem test_wf_amtW_one : Config.wf { std with amtW := .finite 1 } = false := by decide
theorem test_wf_amtW_two : Config.wf { std with amtW := .finite 2 } = true := by decide
theorem test_wf_a_too_long : Request.wf small (rq 0 [1, 2, 3] [] 0) = false := by decide
theorem test_wf_b_too_long : Request.wf small (rq 0 [] [1, 2, 3] 0) = false := by decide
theorem test_wf_amt_above : Request.wf small (rq 0 [] [] 128) = false := by decide
theorem test_wf_amt_below : Request.wf small (rq 0 [] [] (-129)) = false := by decide
theorem test_wf_at_bounds : Request.wf small (rq 0 [1, 2] [3, 4] (-128)) = true := by decide

/-! ### Decoding, one written-out byte of each family, and the reserved bytes of section 2.1 -/

theorem test_decode_and : decode 0b00000000 = .ok .and := by decide
theorem test_decode_shl : decode 0b00000101 = .ok .shl := by decide
theorem test_decode_ror : decode 0b00000111 = .ok .ror := by decide
theorem test_decode_popcnt : decode 0b00001010 = .ok .popcnt := by decide
theorem test_decode_0B : decode 0x0B = .error .reservedOpcode := by decide
theorem test_decode_10 : decode 0x10 = .error .reservedField := by decide
theorem test_decode_84 : decode 0x84 = .error .reservedField := by decide
theorem test_table_word_wider_is_none : decodeTableWord 16 0 = none := by decide

/-! ### Vectors of sections 2.1 to 2.5, through a whole step -/

theorem test_illegal_before_mismatch :
    aloneResponse std (rq 0x10 [0x01] [0x01, 0x02] 0) = some (.fault (.illegalOp 0x10)) := by decide
theorem test_and_equal_lengths :
    aloneResponse std (rq 0x00 [0xff, 0x0f] [0x0f, 0xff] 0) = some (.ok (.buf [0x0f, 0x0f])) := by
  decide
theorem test_and_mismatch :
    aloneResponse std (rq 0x00 [0xaa] [0xaa, 0x55] 0) = some (.fault (.lengthMismatch 1 2)) := by
  decide
theorem test_or_equal_lengths :
    aloneResponse std (rq 0x01 [0x01, 0x00] [0x00, 0x02] 0) = some (.ok (.buf [0x01, 0x02])) := by
  decide
theorem test_or_zip :
    aloneResponse zip (rq 0x01 [0x01] [0x00, 0x02] 0) = some (.ok (.buf [0x01])) := by decide
theorem test_xor_complements :
    aloneResponse std (rq 0x02 [0x12, 0x34] [0xff, 0xff] 0) = some (.ok (.buf [0xed, 0xcb])) := by
  decide
theorem test_xor_zip_drops_longer_a :
    aloneResponse zip (rq 0x02 [0x12, 0x34, 0x56] [0xff] 0) = some (.ok (.buf [0xed])) := by decide
theorem test_not_three_bytes :
    aloneResponse std (rq 0x03 [0x12, 0x34, 0x56] [] 0) = some (.ok (.buf [0xed, 0xcb, 0xa9])) := by
  decide
theorem test_shr_drops_last_byte_then_bits :
    aloneResponse std (rq 0x04 [0x34, 0x12] [] 9) = some (.ok (.buf [0x1a])) := by decide
theorem test_shr_twelve :
    aloneResponse std (rq 0x04 [0x11, 0x22, 0x33] [] 12) = some (.ok (.buf [0x21, 0x02])) := by
  decide
theorem test_shl_pads_then_shifts :
    aloneResponse std (rq 0x05 [0x34, 0x12] [] 9) = some (.ok (.buf [0x68, 0x24, 0x00, 0x00])) := by
  decide
theorem test_shl_capacity :
    aloneResponse small (rq 0x05 [0x01] [] 9) = some (.fault (.capacity 3)) := by decide
theorem test_rol_big_endian :
    aloneResponse std (rq 0x06 [0x80, 0x00, 0x00] [] 1) = some (.ok (.buf [0x00, 0x00, 0x01])) := by
  decide
theorem test_rol_twenty_three :
    aloneResponse std (rq 0x06 [0x01, 0x00, 0x00] [] 23) = some (.ok (.buf [0x00, 0x80, 0x00])) := by
  decide
theorem test_ror_twenty :
    aloneResponse std (rq 0x07 [0x12, 0x34, 0x56] [] 20) = some (.ok (.buf [0x23, 0x45, 0x61])) := by
  decide
theorem test_ror_negative :
    aloneResponse std (rq 0x07 [0x12] [] (-8)) = some (.fault (.negAmount (-8))) := by decide
theorem test_testbit_nine :
    aloneResponse std (rq 0x08 [0x00, 0x02] [] 9) = some (.ok (.bool true)) := by decide
theorem test_testbit_one_past_the_end :
    aloneResponse std (rq 0x08 [0x80] [] 8) = some (.ok (.bool false)) := by decide
theorem test_bit_twenty_three :
    aloneResponse std (rq 0x09 [] [] 23) = some (.ok (.buf [0x00, 0x00, 0x80])) := by decide
theorem test_bit_negative_before_capacity :
    aloneResponse { std with maxBytes := .finite 1 } (rq 0x09 [] [] (-1)) =
      some (.fault (.negIndex (-1))) := by decide
theorem test_popcnt_three :
    aloneResponse std (rq 0x0A [0x80, 0x01, 0x10] [] 0) = some (.ok (.count 3)) := by decide
/-- R52 (b), the counter-example: the two sides differ. -/
theorem test_shr_does_not_compose :
    shrBuffer [0x00, 0x01] 8 = [0x00] ∧ shrBuffer (shrBuffer [0x00, 0x01] 4) 4 = [0x01, 0x00] := by
  decide
/-- R16, R62: the ports of a fault. -/
theorem test_fault_ports :
    (st std (rq 0x09 [] [] (-1))).requests.length = 1 ∧
    (Response.fault (.negIndex (-1))).status = 0x4 ∧ (Response.fault (.negIndex (-1))).kind = 3 := by
  decide
/-- The first step after reset runs the word that is placed. -/
theorem test_fetch_word_from_reset :
    step (State.reset.withFetchWord 8 0x0A) =
      .next { config := std, requests := [], exchanges := [⟨bareRequest 0x0A, .ok (.count 0)⟩] } := by
  rfl
/-- Section 3, P4, the first two lines, from their text. -/
theorem test_program_text :
    (parseProgram "b = BIT #9 ; two bytes\nt1 = testBit b, #9").map
        (runProgram small (rq 0 [] [] 0)) =
      .ok (.ok [("b", .ok (.buf [0x00, 0x02])), ("t1", .ok (.bool true))]) := by
  decide
/-- R40: a name whose line has no buffer is refused. -/
theorem test_name_without_buffer :
    runProgram small (rq 0 [] [] 0)
      [⟨"t", "TESTBIT", [.literal [], .amount (-1)]⟩, ⟨"n", "NOT", [.name "t"]⟩] =
      .error (.assembler .notABuffer) := by
  decide

/-! ### Witnesses for the hypotheses of the statements -/

/-- The head request of `st c r`, for every statement that says `s.requests = r :: rest`. -/
theorem witness_head (c : Config) (r : Request) : (st c r).requests = r :: [] := rfl

/-- IllegalCommandFaultsBeforeOperands: both reserved ranges at their first byte, operands unequal;
and the last legal byte for the second part. -/
theorem witness_illegal_command :
    Presentable small (rq 0x10 [1] [1, 2] 0) ∧ (rq 0x10 [1] [1, 2] 0).cmd.toNat / 16 ≠ 0 ∧
    Presentable small (rq 0x0B [1] [1, 2] 0) ∧ 0xB ≤ (rq 0x0B [1] [1, 2] 0).cmd.toNat % 16 ∧
    (0x0A : Byte).toNat / 16 = 0 ∧ (0x0A : Byte).toNat % 16 < 0xB := by decide

/-- StepRunsDecodedInstruction. -/
theorem witness_step_runs :
    Presentable small (rq 0x0A [1] [] 0) ∧ decode (rq 0x0A [1] [] 0).cmd = .ok .popcnt := by decide

/-- FetchWordIsRunNext. -/
theorem witness_fetch_word :
    State.reset.config.wf = true ∧ decodeTableWord 8 0x0A = some .popcnt := by decide

/-- PortsRefuseExactlyIllFormedRequests: a request at every bound is carried and answered; one past
each bound is refused. -/
theorem witness_ports_carried :
    small.wf = true ∧
    step (st small (rq 0x0A [1, 2] [3, 4] 127)) =
      .next ((st small (rq 0x0A [1, 2] [3, 4] 127)).after (rq 0x0A [1, 2] [3, 4] 127) []
        (.ok (.count 2))) := ⟨by decide, rfl⟩
theorem witness_ports_refused :
    step (st small (rq 0x0A [1, 2, 3] [] 0)) = .refused .requestNotWellFormed ∧
    step (st small (rq 0x0A [] [1, 2, 3] 0)) = .refused .requestNotWellFormed ∧
    step (st small (rq 0x0A [] [] 128)) = .refused .requestNotWellFormed ∧
    step (st small (rq 0x0A [] [] (-129))) = .refused .requestNotWellFormed :=
  ⟨rfl, rfl, rfl, rfl⟩

/-- A state with a fault behind it and another request in front: the second state of
ResponseDependsOnlyOnRequestAndParameters. -/
def busy : State :=
  { config := small
    requests := [rq 0x0A [1] [] 0, rq 0x03 [1] [] 0]
    exchanges := [⟨rq 0x09 [] [] (-1), .fault (.negIndex (-1))⟩] }

/-- ResponseDependsOnlyOnRequestAndParameters: one request in two different states. -/
theorem witness_same_request :
    (st small (rq 0x0A [1] [] 0)).requests = [rq 0x0A [1] [] 0] ∧
    busy.requests = rq 0x0A [1] [] 0 :: [rq 0x03 [1] [] 0] ∧
    (st small (rq 0x0A [1] [] 0)).config = busy.config ∧
    Presentable small (rq 0x0A [1] [] 0) := by decide

/-- EveryInstructionFrame and StepAnswersOneRequest: `exec` and `step` answer a next state. -/
theorem witness_next :
    exec .popcnt busy = .next (busy.after (rq 0x0A [1] [] 0) [rq 0x03 [1] [] 0] (.ok (.count 1))) ∧
    step busy = .next (busy.after (rq 0x0A [1] [] 0) [rq 0x03 [1] [] 0] (.ok (.count 1))) :=
  ⟨rfl, rfl⟩

/-- EveryStepKeepsTheInvariant: a state with a completed request that meets the invariant. -/
theorem witness_invariant : busy.Inv where
  config_wf := by decide
  presentable := by decide
  own_response := by decide
  fits := by simp [busy, Response.fits]

/-- ResetSatisfiesTheInvariant: parameters other than the standard ones. -/
theorem witness_reset_parameters : small.wf = true := by decide

/-- RunGivesEachRequestItsAloneResponse and ResetLeavesNoResponseAndKeepsParameters: two requests
that wait, each within the ports. -/
theorem witness_run :
    busy.config.wf = true ∧ (∀ r ∈ busy.requests, r.wf busy.config = true) ∧
    busy.requests = rq 0x0A [1] [] 0 :: [rq 0x03 [1] [] 0] ∧
    Presentable busy.config (rq 0x0A [1] [] 0) := by decide

/-- ExactlyOneResultFieldIsReadable: the three kinds and a fault. -/
theorem witness_readable_buf :
    exec .bit (st std (rq 0x09 [] [] 0)) =
      .next ((st std (rq 0x09 [] [] 0)).after (rq 0x09 [] [] 0) [] (.ok (.buf [0x01]))) ∧
    ((st std (rq 0x09 [] [] 0)).after (rq 0x09 [] [] 0) [] (.ok (.buf [0x01]))).readStatus = .ok 0 :=
  ⟨rfl, rfl⟩
theorem witness_readable_bool :
    exec .testbit (st std (rq 0x08 [1] [] 0)) =
      .next ((st std (rq 0x08 [1] [] 0)).after (rq 0x08 [1] [] 0) [] (.ok (.bool true))) ∧
    ((st std (rq 0x08 [1] [] 0)).after (rq 0x08 [1] [] 0) [] (.ok (.bool true))).readStatus = .ok 0 :=
  ⟨rfl, rfl⟩
theorem witness_readable_count :
    (busy.after (rq 0x0A [1] [] 0) [rq 0x03 [1] [] 0] (.ok (.count 1))).readStatus = .ok 0 := rfl
theorem witness_readable_fault :
    exec .rol (st std (rq 0x06 [1] [] (-1))) =
      .next ((st std (rq 0x06 [1] [] (-1))).after (rq 0x06 [1] [] (-1)) [] (.fault (.negAmount (-1)))) ∧
    ((st std (rq 0x06 [1] [] (-1))).after (rq 0x06 [1] [] (-1)) []
      (.fault (.negAmount (-1)))).readStatus ≠ .ok 0 :=
  ⟨rfl, by decide⟩

/-- ExactlyOneResultFieldIsReadable: `T` of a bit that is not there, and a step on a byte that is no
instruction. -/
theorem witness_readable_false :
    exec .testbit (st std (rq 0x08 [1] [] 8)) =
      .next ((st std (rq 0x08 [1] [] 8)).after (rq 0x08 [1] [] 8) [] (.ok (.bool false))) ∧
    ((st std (rq 0x08 [1] [] 8)).after (rq 0x08 [1] [] 8) [] (.ok (.bool false))).readT = .ok 0 :=
  ⟨rfl, rfl⟩
theorem witness_readable_illegal :
    step (st std (rq 0x0B [1] [] 0)) =
      .next ((st std (rq 0x0B [1] [] 0)).after (rq 0x0B [1] [] 0) [] (.fault (.illegalOp 0x0B))) ∧
    decode 0x0B = .error .reservedOpcode := ⟨rfl, rfl⟩

/-- StatusTellsTheFault: each condition at its boundary, on requests the ports can carry. -/
theorem witness_status_illegal : Presentable small (rq 0x0B [] [] 0) := by decide
theorem witness_status_mismatch :
    Presentable small (rq 0x02 [1] [1, 2] 0) ∧ (rq 0x02 [1] [1, 2] 0).cmd.toNat % 16 < 0xB ∧
    (rq 0x02 [1] [1, 2] 0).lenA ≠ (rq 0x02 [1] [1, 2] 0).lenB ∧ small.logicLenPolicy = .fault := by
  decide
theorem witness_status_negative :
    Presentable small (rq 0x07 [1] [] (-1)) ∧ Presentable small (rq 0x09 [1] [] (-1)) := by decide
theorem witness_status_capacity :
    Presentable small (rq 0x05 [1, 2] [] 1) ∧ small.maxBytes = .finite 2 ∧
    ((2 : Nat) : Int) < ((rq 0x05 [1, 2] [] 1).lenA : Int) + (1 + 7) / 8 ∧
    Presentable small (rq 0x09 [] [] 16) ∧ ((2 : Nat) : Int) < (16 : Int) / 8 + 1 := by decide
theorem witness_status_ok :
    Presentable small (rq 0x05 [1] [] 8) ∧ Presentable small (rq 0x09 [] [] 15) ∧
    ¬ ((2 : Nat) : Int) < ((rq 0x05 [1] [] 8).lenA : Int) + (8 + 7) / 8 ∧
    ¬ ((2 : Nat) : Int) < (15 : Int) / 8 + 1 := by decide

/-- ResponseCodesAreTheTables: the first reserved code, and a fault status with a result kind. -/
theorem witness_response_codes :
    6 ≤ (0x6 : BitVec 4).toNat ∧ (0x5 : BitVec 4).toNat < 6 ∧
    ¬ ((0x5 : BitVec 4) = 0 ↔ (0 : BitVec 2) ≠ 3) := by decide

/-- UnreadPortsHaveNoEffect: BIT with other buffers, NOT with another amount, on the same read ports. -/
theorem witness_unread_ports :
    (Instr.bit ∉ [Instr.and, .or, .xor, .not, .shr, .shl, .rol, .ror, .testbit, .popcnt]) ∧
    (rq 0x09 [1] [] 3).amt = (rq 0x09 [] [2] 3).amt ∧
    (Instr.not ∉ [Instr.shr, .shl, .rol, .ror, .testbit, .bit]) ∧
    (rq 0x03 [1] [] 3).a = (rq 0x03 [1] [2] (-7)).a := by decide

/-- LengthsAndCountsFitTheirPorts: the longest result and the largest count that `MAX_BYTES` allows. -/
theorem witness_longest_result :
    small.maxBytes = .finite 2 ∧
    step (st small (rq 0x03 [0, 0] [] 0)) =
      .next ((st small (rq 0x03 [0, 0] [] 0)).after (rq 0x03 [0, 0] [] 0) []
        (.ok (.buf [0xff, 0xff]))) ∧
    ((st small (rq 0x03 [0, 0] [] 0)).after (rq 0x03 [0, 0] [] 0) []
      (.ok (.buf [0xff, 0xff]))).readLenR = .ok 2 := ⟨rfl, rfl, rfl⟩
theorem witness_largest_count :
    step (st small (rq 0x0A [0xff, 0xff] [] 0)) =
      .next ((st small (rq 0x0A [0xff, 0xff] [] 0)).after (rq 0x0A [0xff, 0xff] [] 0) []
        (.ok (.count 16))) ∧
    ((st small (rq 0x0A [0xff, 0xff] [] 0)).after (rq 0x0A [0xff, 0xff] [] 0) []
      (.ok (.count 16))).readC = .ok 16 := ⟨rfl, rfl⟩

/-- ByteShiftsAreTruncatedArithmetic at both ends of `0 ≤ s ≤ 8` (R9, by hand). -/
theorem witness_byte_shifts :
    shlByte 0x81 0 = 0x81 ∧ shlByte 0x81 1 = 0x02 ∧ shlByte 0x81 8 = 0 ∧ shrByte 0x81 8 = 0 ∧
    shrByte 0x81 7 = 0x01 := by decide

/-- AmountIsTheSignedPortValue: the pattern 10 on a 2-bit port, no bound, and both ends of 8 bits. -/
theorem witness_amount :
    amount { std with amtW := .finite 2 } (rq 0x04 [] [] ((0b10 : BitVec 2).toNat : Int)) = -2 ∧
    std.amtW = .inf ∧ Presentable small (rq 0x04 [] [] (-128)) ∧
    Presentable small (rq 0x04 [] [] 127) := by decide

/-- AndOrXorResults: the three cases of R42, and a byte that both operands have. -/
theorem witness_logic :
    (rq 0x00 [1] [2] 0).lenA = (rq 0x00 [1] [2] 0).lenB ∧
    (rq 0x00 [1] [2, 3] 0).lenA ≠ (rq 0x00 [1] [2, 3] 0).lenB ∧ zip.logicLenPolicy = .zipTruncate ∧
    std.logicLenPolicy = .fault ∧ (rq 0x00 [1] [2, 3] 0).a[0]? = some 1 ∧
    (rq 0x00 [1] [2, 3] 0).b[0]? = some 2 := by decide

/-- NotResult: a byte of the operand. -/
theorem witness_not : (rq 0x03 [7] [] 0).a[0]? = some 7 := by decide

/-- LogicIdentities: the three choices of `B`. -/
theorem witness_logic_identities :
    (rq 0x02 [1, 2] [1, 2] 0).b = (rq 0x02 [1, 2] [1, 2] 0).a ∧
    (rq 0x02 [1, 2] [0, 0] 0).b = List.replicate (rq 0x02 [1, 2] [0, 0] 0).lenA 0 ∧
    (rq 0x02 [1, 2] [0xff, 0xff] 0).b =
      List.replicate (rq 0x02 [1, 2] [0xff, 0xff] 0).lenA 0xff := by decide

/-- AndPopcountAtMostEither: an AND that answers, the operands of unequal length. -/
theorem witness_and_answers :
    reply .and zip (rq 0x00 [0x0f] [0x3c, 0x01] 0) = some (.ok (.buf [0x0c])) := by decide

/-- TruncAndPadBytes: the last byte kept, the last old byte, the first and the last new byte. -/
theorem witness_trunc_pad :
    (0 : Nat) < [(1 : Byte), 2].length - 1 ∧ (1 : Nat) < [(1 : Byte), 2].length ∧
    [(1 : Byte), 2].length ≤ 2 ∧ (3 : Nat) < [(1 : Byte), 2].length + 2 := by decide

/-- ShrResult: no shift, a negative amount, the smallest shift, and the last amount that leaves a
byte. -/
theorem witness_shr :
    amount std (rq 0x04 [1, 2] [] 0) ≤ 0 ∧ amount std (rq 0x04 [1, 2] [] (-5)) ≤ 0 ∧
    0 < amount std (rq 0x04 [1, 2] [] 1) ∧
    0 < (rq 0x04 [1, 2] [] 15).lenA - (amount std (rq 0x04 [1, 2] [] 15)).toNat / 8 := by decide

/-- ShlResult: no shift, one byte too long, an exact fit, and its last byte. -/
theorem witness_shl :
    amount small (rq 0x05 [1, 2] [] 0) ≤ 0 ∧ 0 < amount small (rq 0x05 [1, 2] [] 1) ∧
    exceeds small ((rq 0x05 [1, 2] [] 1).lenA + (1 + 7) / 8) = true ∧
    0 < amount small (rq 0x05 [1] [] 8) ∧
    exceeds small ((rq 0x05 [1] [] 8).lenA + (8 + 7) / 8) = false ∧
    1 < (rq 0x05 [1] [] 8).lenA + (8 + 7) / 8 := by decide

/-- ShifterNetEffect: both shifts answer for a positive amount with a remainder. -/
theorem witness_net_effect :
    0 < amount std (rq 0x05 [0x34, 0x12] [] 9) ∧
    reply .shl std (rq 0x05 [0x34, 0x12] [] 9) = some (.ok (.buf [0x68, 0x24, 0x00, 0x00])) ∧
    reply .shr std (rq 0x04 [0x34, 0x12] [] 9) = some (.ok (.buf [0x1a])) := by decide

/-- ShlThenShr: an amount of 7 and one of 8. -/
theorem witness_shl_then_shr :
    reply .shl std (rq 0x05 [0xff] [] 7) = some (.ok (.buf [0x80, 0x7f])) ∧
    reply .shr std (rq 0x04 [0x80, 0x7f] [] 7) = some (.ok (.buf [0xff, 0x00])) ∧
    reply .shl std (rq 0x05 [0xff] [] 8) = some (.ok (.buf [0xff, 0x00])) ∧
    reply .shr std (rq 0x04 [0xff, 0x00] [] 8) = some (.ok (.buf [0xff])) := by decide

/-- ShiftComposition: left shifts that compose (8 and 1) and that do not (1 and 1), right shifts at
the edge of the condition (4 and 3). -/
theorem witness_shift_composition :
    reply .shl std (rq 0x05 [0x01] [] 8) = some (.ok (.buf [0x01, 0x00])) ∧
    reply .shl std (rq 0x05 [0x01, 0x00] [] 1) = some (.ok (.buf [0x02, 0x00, 0x00])) ∧
    reply .shl std (rq 0x05 [0x01] [] 9) = some (.ok (.buf [0x02, 0x00, 0x00])) ∧
    reply .shl std (rq 0x05 [0x01] [] 1) = some (.ok (.buf [0x02, 0x00])) ∧
    reply .shl std (rq 0x05 [0x02, 0x00] [] 1) = some (.ok (.buf [0x04, 0x00, 0x00])) ∧
    reply .shl std (rq 0x05 [0x01] [] 2) = some (.ok (.buf [0x04, 0x00])) ∧ vLE [0x01] ≠ 0 ∧
    reply .shr std (rq 0x04 [0x80] [] 4) = some (.ok (.buf [0x08])) ∧
    reply .shr std (rq 0x04 [0x08] [] 3) = some (.ok (.buf [0x01])) ∧
    reply .shr std (rq 0x04 [0x80] [] 7) = some (.ok (.buf [0x01])) := by decide

/-- ByteRotationIsCyclic: the last byte index of a buffer, and a negative rotation of it. -/
theorem witness_rotb :
    (2 : Nat) < [(1 : Byte), 2, 3].length ∧ rotb [1, 2, 3] (-1) = [3, 1, 2] := by decide

/-- RolResult and RorResult: a negative amount, no rotation, and the last byte. -/
theorem witness_rotate :
    amount std (rq 0x06 [1] [] (-1)) < 0 ∧ 0 ≤ amount std (rq 0x06 [1, 2] [] 0) ∧
    1 < (rq 0x06 [1, 2] [] 0).lenA := by decide

/-- RotatorNetEffect and RotationKeepsBitCountAndLength: both rotations answer, beyond a full turn. -/
theorem witness_rotator :
    1 ≤ (rq 0x06 [0x81] [] 9).lenA ∧
    reply .rol std (rq 0x06 [0x81] [] 9) = some (.ok (.buf [0x03])) ∧
    reply .ror std (rq 0x07 [0x81] [] 9) = some (.ok (.buf [0xc0])) := by decide

/-- RotationsInvertAndCompose: rotations that undo each other, and 20 and 12 against 8 on 24 bits. -/
theorem witness_rotations :
    reply .rol std (rq 0x06 [0x12, 0x34, 0x56] [] 4) = some (.ok (.buf [0x23, 0x45, 0x61])) ∧
    reply .ror std (rq 0x07 [0x23, 0x45, 0x61] [] 4) = some (.ok (.buf [0x12, 0x34, 0x56])) ∧
    reply .ror std (rq 0x07 [0x12, 0x34, 0x56] [] 20) = some (.ok (.buf [0x23, 0x45, 0x61])) ∧
    reply .ror std (rq 0x07 [0x23, 0x45, 0x61] [] 12) = some (.ok (.buf [0x56, 0x12, 0x34])) ∧
    reply .ror std (rq 0x07 [0x12, 0x34, 0x56] [] 8) = some (.ok (.buf [0x56, 0x12, 0x34])) ∧
    (8 : Int) % (8 * (rq 0x07 [0x12, 0x34, 0x56] [] 20).lenA : Int) =
      (20 + 12) % (8 * (rq 0x07 [0x12, 0x34, 0x56] [] 20).lenA : Int) := by decide
theorem witness_rotations_left :
    reply .ror std (rq 0x07 [0x00, 0x00, 0x01] [] 1) = some (.ok (.buf [0x80, 0x00, 0x00])) ∧
    reply .rol std (rq 0x06 [0x80, 0x00, 0x00] [] 1) = some (.ok (.buf [0x00, 0x00, 0x01])) ∧
    reply .rol std (rq 0x06 [0x00, 0x00, 0x01] [] 11) = some (.ok (.buf [0x00, 0x08, 0x00])) ∧
    reply .rol std (rq 0x06 [0x80, 0x00, 0x00] [] 12) = some (.ok (.buf [0x00, 0x08, 0x00])) := by
  decide

/-- TestbitResult: below, at and beyond both ends of the index space. -/
theorem witness_testbit :
    amount std (rq 0x08 [0x80] [] (-1)) < 0 ∧
    (8 * (rq 0x08 [0x80] [] 8).lenA : Int) ≤ amount std (rq 0x08 [0x80] [] 8) ∧
    0 ≤ amount std (rq 0x08 [0x80] [] 0) ∧
    amount std (rq 0x08 [0x80] [] 7) < (8 * (rq 0x08 [0x80] [] 7).lenA : Int) := by decide

/-- BitResult: a negative index, the first index too far for two bytes, and the last that fits. -/
theorem witness_bit :
    amount small (rq 0x09 [] [] (-1)) < 0 ∧ 0 ≤ amount small (rq 0x09 [] [] 16) ∧
    exceeds small (16 / 8 + 1) = true ∧ 0 ≤ amount small (rq 0x09 [] [] 15) ∧
    exceeds small (15 / 8 + 1) = false := by decide

/-- BitConstructorLaws: a BIT that answers, tested at its own index and at another. -/
theorem witness_bit_laws :
    reply .bit std (rq 0x09 [] [] 9) = some (.ok (.buf [0x00, 0x02])) ∧
    (rq 0x08 [0x00, 0x02] [] 9).a = [0x00, 0x02] ∧
    reply .testbit std (rq 0x08 [0x00, 0x02] [] 9) = some (.ok (.bool true)) ∧
    reply .testbit std (rq 0x08 [0x00, 0x02] [] 8) = some (.ok (.bool false)) := by decide

/-- UnitsAreIndependent: two units with a request each, stepped in either order. -/
theorem witness_units :
    stepUnits [0, 1] [st std (rq 0x0A [1] [] 0), st small (rq 0x09 [] [] 0)] =
      .next [(st std (rq 0x0A [1] [] 0)).after (rq 0x0A [1] [] 0) [] (.ok (.count 1)),
        (st small (rq 0x09 [] [] 0)).after (rq 0x09 [] [] 0) [] (.ok (.buf [0x01]))] ∧
    stepUnit 1 [st std (rq 0x0A [1] [] 0), st small (rq 0x09 [] [] 0)] =
      .next [st std (rq 0x0A [1] [] 0),
        (st small (rq 0x09 [] [] 0)).after (rq 0x09 [] [] 0) [] (.ok (.buf [0x01]))] :=
  ⟨rfl, rfl⟩

/-- UnitsAreIndependent: a unit that steps and one that has nothing to step, each beside another. -/
theorem witness_unit_beside :
    [busy, st std (rq 0x0A [1] [] 0)][1]? = some (st std (rq 0x0A [1] [] 0)) ∧
    step (st std (rq 0x0A [1] [] 0)) =
      .next ((st std (rq 0x0A [1] [] 0)).after (rq 0x0A [1] [] 0) [] (.ok (.count 1))) ∧
    [busy, State.reset][1]? = some State.reset ∧ step State.reset = .refused .noRequest :=
  ⟨rfl, rfl, rfl, rfl⟩

/-- AssembledLineIsItsRequest: a line of each form assembles, one with the name of an earlier line. -/
theorem witness_assemble :
    assemble (rq 0 [9] [9] 9) [("b", .ok (.buf [1]))] ⟨"o", "OR", [.name "b", .literal [2]]⟩ =
      .ok (rq 0x01 [1] [2] 9) ∧
    assemble (rq 0 [9] [9] 9) [] ⟨"n", "complement", [.literal [2]]⟩ = .ok (rq 0x03 [2] [9] 9) ∧
    assemble (rq 0 [9] [9] 9) [] ⟨"s", "shiftR", [.literal [2], .amount (-3)]⟩ =
      .ok (rq 0x04 [2] [9] (-3)) ∧
    assemble (rq 0 [9] [9] 9) [] ⟨"b", "BIT", [.amount 3]⟩ = .ok (rq 0x09 [9] [9] 3) := by decide

/-- AssembledLineIsItsRequest, the other direction: words that read as an operation of each form, and
buffer operands that resolve. -/
theorem witness_assembles :
    mnemonicOf "OR" = some .or ∧ mnemonicOf "complement" = some .not ∧
    mnemonicOf "shiftR" = some .shr ∧ mnemonicOf "BIT" = some .bit ∧
    resolveBuffer [("b", .ok (.buf [1]))] (.name "b") = .ok [1] ∧
    resolveBuffer [] (.literal [2]) = .ok [2] := by decide

end Sys2Proof.Tests
end

section
/-! Proofs about the widths and the byte operators of spec/00_scope.md (R7, R9): what every response
of a step fits, and the byte shifts as arithmetic. -/

namespace Sys2Proof.Machine

/-! ### The byte operators as arithmetic (R9) -/

theorem shlByte_toNat (x : Byte) (n : Nat) : (shlByte x n).toNat = x.toNat * 2 ^ n % 256 := by
  rw [shlByte, BitVec.toNat_shiftLeft, Nat.shiftLeft_eq]

theorem shrByte_toNat (x : Byte) (n : Nat) : (shrByte x n).toNat = x.toNat / 2 ^ n := by
  rw [shrByte, BitVec.toNat_ushiftRight, Nat.shiftRight_eq_div_pow]

theorem complement_toNat (x : Byte) : (~~~ x).toNat = 255 - x.toNat := by
  rw [BitVec.toNat_not]

theorem two_pow_mul_two_pow_sub {n : Nat} (hn : n ≤ 8) : 2 ^ n * 2 ^ (8 - n) = 256 := by
  rw [← pow_add, Nat.add_sub_cancel' hn]
  rfl

/-- The left-shifted part is a multiple of `2^n`: its low `n` bits are zero. -/
theorem shlByte_toNat_eq_two_pow_mul (x : Byte) {n : Nat} (hn : n ≤ 8) :
    (shlByte x n).toNat = 2 ^ n * (x.toNat % 2 ^ (8 - n)) := by
  rw [shlByte_toNat, ← two_pow_mul_two_pow_sub hn, Nat.mul_comm x.toNat, Nat.mul_mod_mul_left]

/-- The right-shifted part has its low `n` bits only. -/
theorem shrByte_toNat_lt_two_pow (y : Byte) {n : Nat} (hn : n ≤ 8) :
    (shrByte y (8 - n)).toNat < 2 ^ n := by
  rw [shrByte_toNat, Nat.div_lt_iff_lt_mul (by positivity), two_pow_mul_two_pow_sub hn]
  exact y.isLt

/-- The two shifted parts share no bit, so that OR-ing them adds them. -/
theorem shlByte_or_shrByte_toNat (x y : Byte) {n : Nat} (hn : n ≤ 8) :
    (shlByte x n ||| shrByte y (8 - n)).toNat =
      (shlByte x n).toNat + (shrByte y (8 - n)).toNat := by
  rw [BitVec.toNat_or, shlByte_toNat_eq_two_pow_mul x hn]
  exact (Nat.two_pow_add_eq_or_of_lt (shrByte_toNat_lt_two_pow y hn) _).symm

/-! ### Every response of a step fits the unit's ports (R4, R7, R67) -/

theorem allows_finite (m n : Nat) : (Limit.finite m).allows n = true ↔ n ≤ m := by
  simp [Limit.allows]

theorem allows_of_le {l : Limit} {m n : Nat} (h : l.allows n = true) (hmn : m ≤ n) :
    l.allows m = true := by
  cases l with
  | finite k => exact (allows_finite k m).2 (hmn.trans ((allows_finite k n).1 h))
  | inf => rfl

theorem allows_of_not_exceeds {c : Config} {n : Nat} (h : ¬ exceeds c n = true) :
    c.maxBytes.allows n = true := by
  simpa [exceeds] using h

theorem lengths_allowed_of_wf {c : Config} {r : Request} (h : r.wf c = true) :
    c.maxBytes.allows r.lenA = true ∧ c.maxBytes.allows r.lenB = true := by
  simp only [Request.wf, Bool.and_eq_true] at h
  obtain ⟨hlengths, -⟩ := h
  exact hlengths

section
variable {c : Config} {r : Request}

/-- A buffer no longer than an allowed length fits. -/
theorem fits_buf_of_le {R : Buffer} {n : Nat} (hn : c.maxBytes.allows n = true)
    (h : R.length ≤ n) : (Response.ok (.buf R)).fits c :=
  allows_of_le hn h

theorem logicLen_le {lenA lenB M : Nat} (h : logicLen c lenA lenB = .ok M) : M ≤ lenA := by
  unfold logicLen at h
  split at h
  · cases h; exact le_rfl
  · split at h
    · cases h
    · cases h; exact min_le_left _ _

theorem bitwise_fits (f : Byte → Byte → Byte) (ha : c.maxBytes.allows r.lenA = true) :
    (toResponse (bitwise f c r)).fits c := by
  unfold bitwise
  cases hM : logicLen c r.lenA r.lenB with
  | error e => trivial
  | ok M => exact fits_buf_of_le ha ((build_length _ _).trans_le (logicLen_le hM))

/-- A fault carries no result, so a check before a reply keeps it fitting; the reply may use that the
check passed. -/
theorem toResponse_ite_error_fits {bad : Prop} [Decidable bad] {f : UnitFault} {ok : Reply}
    (h : ¬ bad → (toResponse ok).fits c) :
    (toResponse (if bad then .error f else ok)).fits c := by
  split
  · trivial
  · exact h ‹_›

/-- SHL by a positive amount checks the length it needs (R67); otherwise the result is `A`. -/
theorem shlReply_fits (ha : c.maxBytes.allows r.lenA = true) :
    (toResponse (shlReply c r)).fits c := by
  refine toResponse_ite_error_fits fun hok => ?_
  by_cases hi : 0 < amount c r
  · exact fits_buf_of_le (allows_of_not_exceeds fun he => hok ⟨hi, he⟩) (shlBuffer_length hi).le
  · refine fits_buf_of_le ha ?_
    rw [shlBuffer, if_pos (not_lt.1 hi)]

/-- BIT checks the length it needs (R67). -/
theorem bitReply_fits : (toResponse (bitReply c r)).fits c :=
  toResponse_ite_error_fits fun _ => toResponse_ite_error_fits fun hok =>
    fits_buf_of_le (allows_of_not_exceeds hok) (bitBuffer_length _).le

/-- A byte has at most 8 set bits (R59, R60). -/
theorem popcntReply_fits (ha : c.maxBytes.allows r.lenA = true) :
    (toResponse (popcntReply c r)).fits c := by
  cases hm : c.maxBytes with
  | inf => simp [popcntReply, toResponse, Response.fits, hm]
  | finite m =>
    have hA : r.lenA ≤ m := (allows_finite m _).1 (hm ▸ ha)
    have hC : popCountOf r.a ≤ 8 * m := (popCountOf_le r.a).trans (Nat.mul_le_mul_left 8 hA)
    simpa [popcntReply, toResponse, Response.fits, hm] using hC

/-- Every operation on an `A` within `MAX_BYTES` has a result that fits. -/
theorem replyOf_fits (i : Instr) (ha : c.maxBytes.allows r.lenA = true) :
    (toResponse (replyOf i c r)).fits c := by
  cases i with
  | and => exact bitwise_fits _ ha
  | or => exact bitwise_fits _ ha
  | xor => exact bitwise_fits _ ha
  | not => exact fits_buf_of_le ha (complementBuffer_length _).le
  | shr => exact fits_buf_of_le ha (shrBuffer_length_le _ _)
  | shl => exact shlReply_fits ha
  | rol => exact toResponse_ite_error_fits fun _ => fits_buf_of_le ha (rolBuffer_length _ _).le
  | ror => exact toResponse_ite_error_fits fun _ => fits_buf_of_le ha (rorBuffer_length _ _).le
  | testbit => trivial
  | bit => exact bitReply_fits
  | popcnt => exact popcntReply_fits ha

theorem stepResponse_fits (h : r.wf c = true) : (stepResponse c r).fits c := by
  unfold stepResponse
  cases decode r.cmd with
  | error e => trivial
  | ok i => exact replyOf_fits i (lengths_allowed_of_wf h).1

end

/-! ### Reading a field that fits -/

theorem readField_after_eq_ok {α : Type} {s : State} {r : Request} {rest : List Request}
    {p : Response} {field : Response → Option α} {v : α} :
    (s.after r rest p).readField field = .ok v ↔ field p = some v := by
  rw [readField_after]
  cases field p <;> simp

theorem lenR?_le_of_fits {c : Config} {p : Response} {m n : Nat} (hm : c.maxBytes = .finite m)
    (hp : p.fits c) (h : p.lenR? = some n) : n ≤ m := by
  obtain ⟨R, hR, rfl⟩ := Option.map_eq_some_iff.1 h
  unfold Response.r? at hR
  split at hR
  · cases hR
    exact (allows_finite m _).1 (hm ▸ hp)
  · cases hR

theorem c?_le_of_fits {c : Config} {p : Response} {m n : Nat} (hm : c.maxBytes = .finite m)
    (hp : p.fits c) (h : p.c? = some n) : n ≤ 8 * m := by
  unfold Response.c? at h
  split at h
  · cases h
    simpa [Response.fits, hm] using hp
  · cases h

/-- A port of `ceil(log2(m+1))` bits holds every natural up to `m` (R7). -/
theorem lt_two_pow_clog {m n : Nat} (h : n ≤ m) : n < 2 ^ Nat.clog 2 (m + 1) :=
  (Nat.lt_succ_of_le h).trans_le (Nat.le_pow_clog one_lt_two (m + 1))

end Sys2Proof.Machine

open Sys2Proof Sys2Proof.Machine

/-- Settles O18: the operands are bounded because the step accepted them, the results because every
response of a step fits. -/
theorem lengthsAndCountsFitTheirPorts : Obligations.LengthsAndCountsFitTheirPorts := by
  intro s t m hm hstep
  obtain ⟨r, rest, hreq, ⟨-, hwf⟩, rfl⟩ := step_cases hstep
  have hfits := stepResponse_fits hwf
  refine ⟨fun r' rest' hreq' => ?_, fun n hn => ?_, fun n hn => ?_⟩
  · obtain ⟨rfl, -⟩ : r = r' ∧ rest = rest' := by simpa [hreq] using hreq'
    obtain ⟨ha, hb⟩ := lengths_allowed_of_wf hwf
    rw [hm, allows_finite] at ha hb
    exact ⟨lt_two_pow_clog ha, lt_two_pow_clog hb⟩
  · have hle := lenR?_le_of_fits hm hfits (readField_after_eq_ok.1 hn)
    exact ⟨hle, lt_two_pow_clog hle⟩
  · have hle := c?_le_of_fits hm hfits (readField_after_eq_ok.1 hn)
    exact ⟨hle, lt_two_pow_clog hle⟩

/-- Settles O19: the parts of the last clause share no bit, because one is a multiple of `2^n` and
the other is below it. -/
theorem byteShiftsAreTruncatedArithmetic : Obligations.ByteShiftsAreTruncatedArithmetic :=
  ⟨fun x n _ => ⟨shlByte_toNat x n, shrByte_toNat x n, complement_toNat x⟩,
    fun x y _ hn => shlByte_or_shrByte_toNat x y hn⟩

end

section
/-! Proofs about the state of a run (spec/10_state.md): what a step does with a request the ports
cannot carry (R15), that the response is the request's own (R13), the invariant of a run, and which
response field a host can read (R17, R22). -/

namespace Sys2Proof.Machine

section
variable {s t : State} {c : Config} {r : Request} {rest : List Request} {p : Response}

/-! ### The bounds of the ports (R15) -/

theorem allows_iff_forall_finite (l : Limit) (n : Nat) :
    l.allows n = true ↔ ∀ m, l = .finite m → n ≤ m := by
  cases l <;> simp [Limit.allows]

theorem carries_iff_forall_finite (l : Limit) (i : Int) :
    l.carries i = true ↔ ∀ w, l = .finite w → -(2 ^ (w - 1) : Int) ≤ i ∧ i ≤ 2 ^ (w - 1) - 1 := by
  cases l <;> simp [Limit.carries]

/-- R15 without regard to which of the limits are finite. -/
theorem request_wf_iff_within_bounds (c : Config) (r : Request) :
    r.wf c = true ↔
      (∀ m, c.maxBytes = .finite m → r.lenA ≤ m ∧ r.lenB ≤ m) ∧
      (∀ w, c.amtW = .finite w → -(2 ^ (w - 1) : Int) ≤ r.amt ∧ r.amt ≤ 2 ^ (w - 1) - 1) := by
  simp only [Request.wf, Bool.and_eq_true, allows_iff_forall_finite, carries_iff_forall_finite,
    imp_and, forall_and]

theorem accept_of_not_wf (h : s.requests = r :: rest) (hc : s.config.wf = true)
    (hr : ¬ r.wf s.config = true) : s.accept = .error .requestNotWellFormed := by
  simp [State.accept, h, hc, hr]

theorem step_of_not_wf (h : s.requests = r :: rest) (hc : s.config.wf = true)
    (hr : ¬ r.wf s.config = true) : step s = .refused .requestNotWellFormed := by
  simp [step, accept_of_not_wf h hc hr]

/-! ### The invariant of a run -/

/-- What holds of every completed request after a delivery: of the earlier ones and of the new one. -/
theorem forall_exchanges_after {P : Exchange → Prop} (hs : ∀ e ∈ s.exchanges, P e)
    (hp : P ⟨r, p⟩) : ∀ e ∈ (s.after r rest p).exchanges, P e :=
  List.forall_mem_append.2 ⟨hs, List.forall_mem_singleton.2 hp⟩

/-- A delivery keeps the invariant where the ports can carry the request, the response is its own and
the result fits. -/
theorem inv_after (hs : s.Inv) (hr : r.wf s.config = true)
    (hown : aloneResponse s.config r = some p) (hfits : p.fits s.config) :
    (s.after r rest p).Inv where
  config_wf := hs.config_wf
  presentable := forall_exchanges_after hs.presentable hr
  own_response := forall_exchanges_after hs.own_response hown
  fits := forall_exchanges_after hs.fits hfits

theorem inv_of_no_exchanges (hc : s.config.wf = true) (h : s.exchanges = []) : s.Inv where
  config_wf := hc
  presentable := by simp [h]
  own_response := by simp [h]
  fits := by simp [h]

/-! ### The kind of an operation's result (R17) -/

/-- The kind of result an operation gives where it raises nothing. -/
def resultKindOf : Instr → ResultKind
  | .and | .or | .xor | .not | .shr | .shl | .rol | .ror | .bit => .buf
  | .testbit => .bool
  | .popcnt => .count

/-- The reply is a fault or has a result of the kind `k`. -/
def GivesKind (k : ResultKind) (m : Reply) : Prop := ∀ res, m = .ok res → res.kind = k

theorem givesKind_ok (res : Result) : GivesKind res.kind (.ok res) := by
  rintro _ ⟨⟩
  rfl

theorem givesKind_error (k : ResultKind) (f : UnitFault) : GivesKind k (.error f) := nofun

theorem givesKind_ite_error {k : ResultKind} {bad : Prop} [Decidable bad] {f : UnitFault}
    {m : Reply} (h : GivesKind k m) : GivesKind k (if bad then .error f else m) := by
  split
  · exact givesKind_error k f
  · exact h

theorem bitwise_givesKind_buf (f : Byte → Byte → Byte) (c : Config) (r : Request) :
    GivesKind .buf (bitwise f c r) := by
  unfold bitwise
  cases logicLen c r.lenA r.lenB with
  | error e => exact givesKind_error _ e
  | ok M => exact givesKind_ok (.buf _)

theorem replyOf_givesKind (i : Instr) (c : Config) (r : Request) :
    GivesKind (resultKindOf i) (replyOf i c r) := by
  cases i with
  | and => exact bitwise_givesKind_buf _ c r
  | or => exact bitwise_givesKind_buf _ c r
  | xor => exact bitwise_givesKind_buf _ c r
  | not => exact givesKind_ok (.buf _)
  | shr => exact givesKind_ok (.buf _)
  | shl => exact givesKind_ite_error (givesKind_ok (.buf _))
  | rol => exact givesKind_ite_error (givesKind_ok (.buf _))
  | ror => exact givesKind_ite_error (givesKind_ok (.buf _))
  | testbit => exact givesKind_ok (.bool _)
  | bit => exact givesKind_ite_error (givesKind_ite_error (givesKind_ok (.buf _)))
  | popcnt => exact givesKind_ok (.count _)

theorem toResponse_eq_ok {m : Reply} {res : Result} : toResponse m = .ok res ↔ m = .ok res := by
  cases m <;> simp [toResponse]

theorem Result.kind_eq_buf {res : Result} (h : res.kind = .buf) : ∃ R, res = .buf R := by
  cases res <;> simp_all [Result.kind]

theorem Result.kind_eq_bool {res : Result} (h : res.kind = .bool) : ∃ T, res = .bool T := by
  cases res <;> simp_all [Result.kind]

theorem Result.kind_eq_count {res : Result} (h : res.kind = .count) : ∃ C, res = .count C := by
  cases res <;> simp_all [Result.kind]

theorem resultKindOf_eq_buf : ∀ i ∈ [Instr.and, .or, .xor, .not, .shr, .shl, .rol, .ror, .bit],
    resultKindOf i = .buf := by decide

/-- `ResultIsOfItsKind` says for the three groups of operations what `resultKindOf` says for each. -/
theorem resultIsOfItsKind_of_kind {i : Instr}
    (h : ∀ res, p = .ok res → res.kind = resultKindOf i) : ResultIsOfItsKind i p := by
  intro res hres
  have hkind := h res hres
  refine ⟨fun hi => ?_, ?_, ?_⟩
  · exact Result.kind_eq_buf (hkind.trans (resultKindOf_eq_buf i hi))
  · rintro rfl
    exact Result.kind_eq_bool hkind
  · rintro rfl
    exact Result.kind_eq_count hkind

theorem toResponse_replyOf_isOfItsKind (i : Instr) (c : Config) (r : Request) :
    ResultIsOfItsKind i (toResponse (replyOf i c r)) :=
  resultIsOfItsKind_of_kind fun res h => replyOf_givesKind i c r res (toResponse_eq_ok.1 h)

/-! ### The readable fields (R17) -/

theorem UnitFault.status_code_ne_zero (f : UnitFault) : f.status.code ≠ 0 := by
  cases f <;> simp [UnitFault.status, Status.code]

/-- The port `T` is 1 exactly for true and 0 exactly for false (R16). -/
theorem t?_bool_eq_some_iff (T : Bool) :
    (Response.t? (.ok (.bool T)) = some 1 ↔ T = true) ∧
    (Response.t? (.ok (.bool T)) = some 0 ↔ T = false) := by
  cases T <;> decide

theorem readField_after_of_none {α : Type} {field : Response → Option α} (h : field p = none) :
    (s.after r rest p).readField field = .error .fieldHoldsNoValue := by
  rw [readField_after, h]

/-- Which fields hold a value is read off from the response's own constructor (R17). -/
theorem fieldsReadAs_after (s : State) (r : Request) (rest : List Request) (p : Response) :
    FieldsReadAs (s.after r rest p) p := by
  match p with
  | .ok (.buf R) =>
    exact ⟨readStatus_after, readKind_after, readField_after_eq_ok.2 rfl,
      readField_after_eq_ok.2 rfl, readField_after_of_none rfl, readField_after_of_none rfl⟩
  | .ok (.bool T) =>
    obtain ⟨hone, hzero⟩ := t?_bool_eq_some_iff T
    exact ⟨readStatus_after, readKind_after, readField_after_eq_ok.trans hone,
      readField_after_eq_ok.trans hzero, readField_after_of_none rfl, readField_after_of_none rfl,
      readField_after_of_none rfl⟩
  | .ok (.count C) =>
    exact ⟨readStatus_after, readKind_after, readField_after_eq_ok.2 rfl,
      readField_after_of_none rfl, readField_after_of_none rfl, readField_after_of_none rfl⟩
  | .fault f =>
    exact ⟨⟨_, readStatus_after, f.status_code_ne_zero⟩, readKind_after,
      readField_after_of_none rfl, readField_after_of_none rfl, readField_after_of_none rfl,
      readField_after_of_none rfl⟩

theorem stepResponse_of_decode_ok {i : Instr} (h : decode r.cmd = .ok i) :
    stepResponse c r = toResponse (replyOf i c r) := by
  simp [stepResponse, h]

theorem stepResponse_of_no_instruction (h : ¬ ∃ i, decode r.cmd = .ok i) :
    stepResponse c r = .fault (.illegalOp r.cmd) := by
  cases hd : decode r.cmd with
  | error e => simp [stepResponse, hd]
  | ok i => exact absurd ⟨i, hd⟩ h

end

end Sys2Proof.Machine

open Sys2Proof Sys2Proof.Machine

/-- Settles O10: a step delivers one response, and that response is the request's own and fits. -/
theorem everyStepKeepsTheInvariant : Obligations.EveryStepKeepsTheInvariant := by
  intro s t hs hstep
  obtain ⟨r, rest, -, ⟨hc, hr⟩, rfl⟩ := step_cases hstep
  exact inv_after hs hr (aloneResponse_eq ⟨hc, hr⟩) (stepResponse_fits hr)

/-- Settles O6: the bounds of the statement are the check of `State.accept`. -/
theorem portsRefuseExactlyIllFormedRequests :
    Obligations.PortsRefuseExactlyIllFormedRequests := by
  intro s r rest hreq hc carried
  have hwf : r.wf s.config = true ↔ carried := request_wf_iff_within_bounds s.config r
  exact ⟨fun h => ⟨_, step_cons hreq ⟨hc, hwf.2 h⟩⟩,
    fun h => step_of_not_wf hreq hc (mt hwf.1 h)⟩

/-- Settles O7: the response is `stepResponse` of the parameters and the request alone. -/
theorem responseDependsOnlyOnRequestAndParameters :
    Obligations.ResponseDependsOnlyOnRequestAndParameters := by
  intro s t r restS restT hs ht hc hp
  exact ⟨stepResponse s.config r, step_cons hs hp, hc ▸ step_cons ht (hc ▸ hp)⟩

/-- Settles O8: `exec` answers the head request with the reply of the instruction. -/
theorem everyInstructionFrame : Obligations.EveryInstructionFrame := by
  intro i s t hexec
  obtain ⟨r, rest, hreq, rfl⟩ := exec_cases hexec
  exact ⟨r, _, hreq, rfl, rfl, reply_eq i s.config r⟩

/-- Settles O14: the fields read as the response right after its delivery, and `exec` and `step` end
in a delivery whose result is of the operation's kind. -/
theorem exactlyOneResultFieldIsReadable : Obligations.ExactlyOneResultFieldIsReadable := by
  refine ⟨fieldsReadAs_after, fun i s t hexec => ?_, fun s t hstep => ?_⟩
  · obtain ⟨r, rest, hreq, rfl⟩ := exec_cases hexec
    exact ⟨r, _, hreq, rfl, fieldsReadAs_after _ _ _ _, toResponse_replyOf_isOfItsKind i _ r⟩
  · obtain ⟨r, rest, hreq, -, rfl⟩ := step_cases hstep
    refine ⟨r, _, hreq, rfl, fieldsReadAs_after _ _ _ _, fun i hi => ?_, fun hno => ?_⟩
    · rw [stepResponse_of_decode_ok hi]
      exact toResponse_replyOf_isOfItsKind i _ r
    · rw [stepResponse_of_no_instruction hno]
      exact ⟨rfl, readStatus_after⟩

/-- Settles O11: nothing is completed at reset. -/
theorem resetSatisfiesTheInvariant : Obligations.ResetSatisfiesTheInvariant :=
  ⟨inv_of_no_exchanges rfl rfl, fun _ hc => inv_of_no_exchanges hc rfl⟩

/-- Settles O13: a field reads no value where nothing is completed, and the response to the waiting
request does not depend on what was. -/
theorem resetLeavesNoResponseAndKeepsParameters :
    Obligations.ResetLeavesNoResponseAndKeepsParameters := by
  refine ⟨fun c => ⟨rfl, readField_no_response rfl _⟩, fun s => ?_⟩
  have hread {α : Type} (field : Response → Option α) :
      s.applyReset.readField field = .error .noResponseYet := readField_no_response rfl field
  refine ⟨rfl, rfl, hread _, hread _, hread _, hread _, hread _, hread _, fun r rest hreq hp => ?_⟩
  exact ⟨stepResponse s.config r, step_cons hreq hp, step_cons (s := s.applyReset) hreq hp⟩

end

section
/-! Proofs about spec/20_memory.md: a run answers every request as if it were alone (R31, R80), and
POPCNT counts the set bits of the little-endian value (R24, R60). -/

namespace Sys2Proof.Machine

/-! ### A run over the waiting requests (R31, R80) -/

section
variable {s : State} {c : Config} {rs : List Request}

/-- A run whose first step answers goes on from the state that step leaves. -/
theorem run_succ_of_step {M : Host.Core} {s t : M.State} (k : Nat) (h : M.step s = .next t) :
    M.run (k + 1) s = M.run k t := by
  simp only [Host.Core.run, h]

/-- The request beside the response it gets, which is its own (R78). -/
def ownExchange (c : Config) (r : Request) : Exchange := ⟨r, stepResponse c r⟩

/-- The state a run ends in once every waiting request is answered (R80). -/
def State.drained (s : State) : State :=
  { s with requests := [], exchanges := s.exchanges ++ s.requests.map (ownExchange s.config) }

theorem State.drained_of_no_requests (h : s.requests = []) : s.drained = s := by
  obtain ⟨config, requests, exchanges⟩ := s
  cases h
  simp [State.drained]

/-- Answering the head request first leads to the same end. -/
theorem State.drained_after {r : Request} (h : s.requests = r :: rs) :
    (s.after r rs (stepResponse s.config r)).drained = s.drained := by
  simp [State.drained, State.after, h, ownExchange]

/-- As many steps as there are waiting requests answer them all, each with its own response. -/
theorem run_eq_drained (hreq : s.requests = rs) (hp : ∀ r ∈ rs, Presentable s.config r) :
    Host.Core.run core rs.length s = .next s.drained := by
  induction rs generalizing s with
  | nil => rw [State.drained_of_no_requests hreq]; rfl
  | cons r rs ih =>
    obtain ⟨hr, hrs⟩ := List.forall_mem_cons.1 hp
    calc Host.Core.run core (rs.length + 1) s
      _ = Host.Core.run core rs.length (s.after r rs (stepResponse s.config r)) :=
        run_succ_of_step (M := core) _ (step_cons hreq hr)
      _ = .next (s.after r rs (stepResponse s.config r)).drained := ih rfl hrs
      _ = .next s.drained := by rw [State.drained_after hreq]

theorem map_request_ownExchange (c : Config) (rs : List Request) :
    (rs.map (ownExchange c)).map Exchange.request = rs := by
  simp [Function.comp_def, ownExchange]

theorem aloneResponse_of_mem_map_ownExchange (hp : ∀ r ∈ rs, Presentable c r) :
    ∀ e ∈ rs.map (ownExchange c), aloneResponse c e.request = some e.response :=
  List.forall_mem_map.2 fun r hr => aloneResponse_eq (hp r hr)

end

/-! ### The set bits of the little-endian value (R24, R60) -/

theorem bitOf_eq_ite (x : Byte) (j : Nat) : bitOf x j = if x.getLsbD j then 1 else 0 := by
  rw [bitOf, Bool.toNat, Bool.cond_eq_ite]

/-- `pop8(x)` of R59 is the number of bit indices below 8 whose bit is 1. -/
theorem pop8_eq_count (x : Byte) : pop8 x = Nat.count (fun j => x.getLsbD j) 8 := by
  simp only [pop8, bitOf_eq_ite, Nat.count_succ, Nat.count_zero, Nat.zero_add]

/-- Byte `k` of a buffer holds the bits `8k .. 8k+7` of its little-endian value (R24). -/
theorem vLE_testBit_byte (X : Buffer) (k : Nat) {j : Nat} (hj : j < 8) :
    (vLE X).testBit (8 * k + j) = (byteAt X k).getLsbD j := by
  have hdiv : (8 * k + j) / 8 = k := by omega
  have hmod : (8 * k + j) % 8 = j := by omega
  rw [vLE_testBit, hdiv, hmod]

theorem count_vLE_testBit_byte (X : Buffer) (k : Nat) :
    Nat.count (fun j => (vLE X).testBit (8 * k + j)) 8 = pop8 (byteAt X k) := by
  rw [pop8_eq_count, Nat.count_eq_card_filter_range, Nat.count_eq_card_filter_range]
  congr 1
  exact Finset.filter_congr fun j hj => by rw [vLE_testBit_byte X k (Finset.mem_range.1 hj)]

/-- The set bits below `8n` of the value, counted byte by byte. -/
theorem count_vLE_testBit (X : Buffer) (n : Nat) :
    Nat.count (fun j => (vLE X).testBit j) (8 * n) =
      ∑ k ∈ Finset.range n, pop8 (byteAt X k) := by
  induction n with
  | zero => rfl
  | succ n ih =>
    rw [Nat.mul_succ, Nat.count_add, ih, count_vLE_testBit_byte, Finset.sum_range_succ]

theorem popCountOf_eq_card_vLE_testBit (X : Buffer) :
    popCountOf X = ((Finset.range (8 * X.length)).filter fun j => (vLE X).testBit j).card := by
  rw [popCountOf_eq_sum, ← count_vLE_testBit, Nat.count_eq_card_filter_range]

end Sys2Proof.Machine

open Sys2Proof Sys2Proof.Machine

/-- Settles O12: every step answers the head request with its own response, by induction on the
waiting requests. -/
theorem runGivesEachRequestItsAloneResponse :
    Obligations.RunGivesEachRequestItsAloneResponse := by
  intro s hc hr
  have hp : ∀ r ∈ s.requests, Presentable s.config r := fun r hmem => ⟨hc, hr r hmem⟩
  exact ⟨s.drained, _, run_eq_drained rfl hp, rfl, rfl, rfl, map_request_ownExchange _ _,
    aloneResponse_of_mem_map_ownExchange hp⟩

/-- Settles O42: each byte holds eight consecutive bits of the value. -/
theorem popcntCountsBitsOfTheValue : Obligations.PopcntCountsBitsOfTheValue :=
  fun c r => ⟨popCountOf r.a, reply_eq .popcnt c r, popCountOf_eq_card_vLE_testBit r.a⟩

end

section
/-! Proofs about spec/30_encoding.md: which command bytes are operations (R33 to R36, R39), which
ports an operation reads and what its amount is (R37, R38), and the written form of a request
(R40, R41). -/

namespace Sys2Proof

/-! ### The command byte (R33 to R36, R39) -/

/-- The opcode map of R35 covers exactly the opcodes below the reserved ones of R36. -/
theorem exists_decodeOpcode_iff (op : BitVec 4) :
    (∃ i, decodeOpcode op = .ok i) ↔ op.toNat < 0xB := by
  unfold decodeOpcode
  split
  case h_12 =>
    simp only [imp_false, reduceCtorEq, exists_false, false_iff] at *
    omega
  all_goals simp [*]

theorem exists_decode_iff (cmd : Byte) :
    (∃ i, decode cmd = .ok i) ↔ cmd.toNat / 16 = 0 ∧ cmd.toNat % 16 < 0xB := by
  rw [← rsvField_toNat, ← opField_toNat, ← exists_decodeOpcode_iff, decode]
  by_cases h : rsvField cmd = 0
  · simp [h]
  · have hne : (rsvField cmd).toNat ≠ 0 := fun h0 => h (BitVec.eq_of_toNat_eq h0)
    rw [if_pos h]
    simp [hne]

theorem decode_encode (i : Instr) : decode (encode i) = .ok i := by
  cases i <;> rfl

end Sys2Proof

namespace Sys2Proof.Machine

/-! ### The ports an operation reads (R37) -/

theorem mem_iff_readsA (i : Instr) :
    i ∈ [Instr.and, .or, .xor, .not, .shr, .shl, .rol, .ror, .testbit, .popcnt] ↔
      readsA i = true := by
  cases i <;> decide

theorem mem_iff_readsB (i : Instr) : i ∈ [Instr.and, .or, .xor] ↔ readsB i = true := by
  cases i <;> decide

theorem mem_iff_readsAmt (i : Instr) :
    i ∈ [Instr.shr, .shl, .rol, .ror, .testbit, .bit] ↔ readsAmt i = true := by
  cases i <;> decide

/-- Requests that agree on the ports an operation reads get the same reply: each operation reads two
buffers, one buffer, a buffer and an amount, or an amount alone. -/
theorem replyOf_eq_of_agree {i : Instr} (c : Config) {r r' : Request}
    (ha : readsA i = true → r.a = r'.a) (hb : readsB i = true → r.b = r'.b)
    (hamt : readsAmt i = true → r.amt = r'.amt) : replyOf i c r = replyOf i c r' := by
  obtain ⟨cmd, a, b, amt⟩ := r
  obtain ⟨cmd', a', b', amt'⟩ := r'
  cases i with
  | and | or | xor =>
    obtain rfl : a = a' := ha rfl
    obtain rfl : b = b' := hb rfl
    rfl
  | not | popcnt =>
    obtain rfl : a = a' := ha rfl
    rfl
  | shr | shl | rol | ror | testbit =>
    obtain rfl : a = a' := ha rfl
    obtain rfl : amt = amt' := hamt rfl
    rfl
  | bit =>
    obtain rfl : amt = amt' := hamt rfl
    rfl

theorem reply_eq_of_agree {i : Instr} (c : Config) {r r' : Request}
    (ha : readsA i = true → r.a = r'.a) (hb : readsB i = true → r.b = r'.b)
    (hamt : readsAmt i = true → r.amt = r'.amt) : reply i c r = reply i c r' := by
  rw [reply_eq, reply_eq, replyOf_eq_of_agree c ha hb hamt]

/-! ### The amount (R38) -/

theorem amount_of_port {c : Config} {r : Request} {w : Nat} {port : BitVec w}
    (hw : c.amtW = .finite w) (hr : r.amt = (port.toNat : Int)) : amount c r = port.toInt := by
  simp [amount, sextAmt, hw, hr, BitVec.ofInt_natCast]

theorem amount_of_inf {c : Config} {r : Request} (h : c.amtW = .inf) : amount c r = r.amt := by
  simp [amount, sextAmt, h]

/-- An integer in the range of R5 is its own two's-complement value. -/
theorem amount_of_presentable {c : Config} {r : Request} (hp : Presentable c r) :
    amount c r = r.amt := by
  obtain ⟨hc, hr⟩ := hp
  cases hw : c.amtW with
  | inf => exact amount_of_inf hw
  | finite w =>
    have hpos : 2 ≤ w := by
      simpa [hw, Limit.atLeast] using (Bool.and_eq_true_iff.1 hc).2
    obtain ⟨hlo, hhi⟩ := ((request_wf_iff_within_bounds c r).1 hr).2 w hw
    simp only [amount, sextAmt, hw]
    exact BitVec.toInt_ofInt_eq_self (by omega) hlo (by omega)

/-! ### The words of the assembler (R35, R41) -/

/-- In a list of pairs with distinct keys, looking a key up finds every pair of that key. -/
theorem lookup_eq_some_iff_mem {α β : Type} [BEq α] [LawfulBEq α] {l : List (α × β)}
    (hl : (l.map Prod.fst).Nodup) {k : α} {v : β} : l.lookup k = some v ↔ (k, v) ∈ l := by
  rw [List.lookup_eq_some_iff, List.mem_iff_append]
  refine exists_congr fun l₁ => exists_congr fun l₂ => and_iff_left_of_imp ?_
  rintro rfl p hp
  rw [List.map_append, List.nodup_append] at hl
  obtain ⟨-, -, hdisj⟩ := hl
  simpa using (hdisj p.1 (List.mem_map_of_mem hp) k (by simp)).symm

theorem mnemonicTable_words_nodup : (mnemonicTable.map Prod.fst).Nodup := by decide

theorem mnemonicOf_eq_some_iff {m : String} {i : Instr} :
    mnemonicOf m = some i ↔ (m, i) ∈ mnemonicTable :=
  lookup_eq_some_iff_mem mnemonicTable_words_nodup

/-! ### The operands of a line (R40) -/

section
variable {env : List (String × Response)} {fill r : Request} {l : Line} {i : Instr}

theorem Response.r?_eq_some_iff {p : Response} {R : Buffer} :
    p.r? = some R ↔ p = .ok (.buf R) := by
  rcases p with (R' | T | C) | f <;> simp [Response.r?]

theorem resolveBuffer_name_eq_ok {n : String} {R : Buffer} :
    resolveBuffer env (.name n) = .ok R ↔ env.lookup n = some (.ok (.buf R)) := by
  cases hp : env.lookup n with
  | none => simp [resolveBuffer, hp]
  | some p =>
    rw [Option.some_inj, ← Response.r?_eq_some_iff]
    cases hr : p.r? <;> simp [resolveBuffer, hp, hr]

/-- A word the assembler does not know assembles to nothing. -/
theorem exists_mnemonicOf_of_assemble (h : assemble fill env l = .ok r) :
    ∃ i, mnemonicOf l.mnemonic = some i := by
  cases hm : mnemonicOf l.mnemonic with
  | none => simp [assemble, hm] at h
  | some i => exact ⟨i, rfl⟩

/-! Which ports each of the four operand forms of R40 fills. -/

theorem operand_form_cases (i : Instr) :
    i ∈ [Instr.and, .or, .xor] ∨ i ∈ [Instr.not, .popcnt] ∨
      i ∈ [Instr.shr, .shl, .rol, .ror, .testbit] ∨ i = .bit := by
  cases i <;> decide

theorem reads_of_mem_two_buffers :
    ∀ i ∈ [Instr.and, .or, .xor], readsA i = true ∧ readsB i = true ∧ readsAmt i = false := by
  decide

theorem reads_of_mem_one_buffer :
    ∀ i ∈ [Instr.not, .popcnt], readsA i = true ∧ readsB i = false ∧ readsAmt i = false := by
  decide

theorem reads_of_mem_buffer_amount :
    ∀ i ∈ [Instr.shr, .shl, .rol, .ror, .testbit],
      readsA i = true ∧ readsB i = false ∧ readsAmt i = true := by
  decide

/-! When a line assembles, and to which request, form by form. -/

theorem assemble_two_buffers (hm : mnemonicOf l.mnemonic = some i)
    (hi : i ∈ [Instr.and, .or, .xor]) :
    assemble fill env l = .ok r ↔
      ∃ x y a b, l.args = [x, y] ∧ resolveBuffer env x = .ok a ∧ resolveBuffer env y = .ok b ∧
        r = { cmd := encode i, a := a, b := b, amt := fill.amt } := by
  obtain ⟨hA, hB, hAmt⟩ := reads_of_mem_two_buffers i hi
  rcases hargs : l.args with _ | ⟨x, _ | ⟨y, _ | ⟨z, zs⟩⟩⟩
  case cons.cons.nil =>
    cases hx : resolveBuffer env x <;> cases hy : resolveBuffer env y <;>
      simp [assemble, hm, hA, hB, hAmt, hargs, hx, hy, eq_comm]
  all_goals simp [assemble, hm, hA, hB, hAmt, hargs]

theorem assemble_one_buffer (hm : mnemonicOf l.mnemonic = some i)
    (hi : i ∈ [Instr.not, .popcnt]) :
    assemble fill env l = .ok r ↔
      ∃ x a, l.args = [x] ∧ resolveBuffer env x = .ok a ∧
        r = { cmd := encode i, a := a, b := fill.b, amt := fill.amt } := by
  obtain ⟨hA, hB, hAmt⟩ := reads_of_mem_one_buffer i hi
  rcases hargs : l.args with _ | ⟨x, _ | ⟨y, ys⟩⟩
  case cons.nil =>
    cases hx : resolveBuffer env x <;>
      simp [assemble, hm, hA, hB, hAmt, hargs, hx, eq_comm]
  all_goals simp [assemble, hm, hA, hB, hAmt, hargs]

theorem assemble_buffer_amount (hm : mnemonicOf l.mnemonic = some i)
    (hi : i ∈ [Instr.shr, .shl, .rol, .ror, .testbit]) :
    assemble fill env l = .ok r ↔
      ∃ x n a, l.args = [x, .amount n] ∧ resolveBuffer env x = .ok a ∧
        r = { cmd := encode i, a := a, b := fill.b, amt := n } := by
  obtain ⟨hA, hB, hAmt⟩ := reads_of_mem_buffer_amount i hi
  rcases hargs : l.args with _ | ⟨x, _ | ⟨y, _ | ⟨z, zs⟩⟩⟩
  case cons.cons.nil =>
    cases y with
    | literal | name => simp [assemble, hm, hA, hB, hAmt, hargs]
    | amount n =>
      cases hx : resolveBuffer env x <;>
        simp [assemble, hm, hA, hB, hAmt, hargs, hx, eq_comm]
  all_goals simp [assemble, hm, hA, hB, hAmt, hargs]

theorem assemble_amount (hm : mnemonicOf l.mnemonic = some .bit) :
    assemble fill env l = .ok r ↔
      ∃ n, l.args = [.amount n] ∧
        r = { cmd := encode .bit, a := fill.a, b := fill.b, amt := n } := by
  rcases hargs : l.args with _ | ⟨x, _ | ⟨y, ys⟩⟩
  case cons.nil =>
    cases x <;> simp [assemble, hm, readsA, readsB, readsAmt, hargs, eq_comm]
  all_goals simp [assemble, hm, readsA, readsB, readsAmt, hargs]

/-- What the unread ports hold changes nothing in the response (R40). -/
theorem assemble_other_fill (hm : mnemonicOf l.mnemonic = some i)
    (h : assemble fill env l = .ok r) (fill' : Request) (c : Config) :
    ∃ r', assemble fill' env l = .ok r' ∧ reply i c r' = reply i c r := by
  rcases operand_form_cases i with hi | hi | hi | rfl
  · obtain ⟨x, y, a, b, hargs, hx, hy, rfl⟩ := (assemble_two_buffers hm hi).1 h
    obtain ⟨-, -, hAmt⟩ := reads_of_mem_two_buffers i hi
    exact ⟨_, (assemble_two_buffers hm hi).2 ⟨x, y, a, b, hargs, hx, hy, rfl⟩,
      reply_eq_of_agree c (fun _ => rfl) (fun _ => rfl) (by simp [hAmt])⟩
  · obtain ⟨x, a, hargs, hx, rfl⟩ := (assemble_one_buffer hm hi).1 h
    obtain ⟨-, hB, hAmt⟩ := reads_of_mem_one_buffer i hi
    exact ⟨_, (assemble_one_buffer hm hi).2 ⟨x, a, hargs, hx, rfl⟩,
      reply_eq_of_agree c (fun _ => rfl) (by simp [hB]) (by simp [hAmt])⟩
  · obtain ⟨x, n, a, hargs, hx, rfl⟩ := (assemble_buffer_amount hm hi).1 h
    obtain ⟨-, hB, -⟩ := reads_of_mem_buffer_amount i hi
    exact ⟨_, (assemble_buffer_amount hm hi).2 ⟨x, n, a, hargs, hx, rfl⟩,
      reply_eq_of_agree c (fun _ => rfl) (by simp [hB]) (fun _ => rfl)⟩
  · obtain ⟨n, hargs, rfl⟩ := (assemble_amount hm).1 h
    exact ⟨_, (assemble_amount hm).2 ⟨n, hargs, rfl⟩,
      reply_eq_of_agree c nofun nofun (fun _ => rfl)⟩

theorem cmd_of_assemble (hm : mnemonicOf l.mnemonic = some i)
    (h : assemble fill env l = .ok r) : r.cmd = encode i := by
  rcases operand_form_cases i with hi | hi | hi | rfl
  · obtain ⟨x, y, a, b, -, -, -, rfl⟩ := (assemble_two_buffers hm hi).1 h
    rfl
  · obtain ⟨x, a, -, -, rfl⟩ := (assemble_one_buffer hm hi).1 h
    rfl
  · obtain ⟨x, n, a, -, -, rfl⟩ := (assemble_buffer_amount hm hi).1 h
    rfl
  · obtain ⟨n, -, rfl⟩ := (assemble_amount hm).1 h
    rfl

end

end Sys2Proof.Machine

open Sys2Proof Sys2Proof.Machine

/-- Settles O3: a reserved byte decodes to no operation, and a step answers it without a look at the
operands. -/
theorem illegalCommandFaultsBeforeOperands : Obligations.IllegalCommandFaultsBeforeOperands := by
  refine ⟨fun s r rest hreq hp hreserved => ?_,
    fun cmd hrsv hop => (exists_decode_iff cmd).2 ⟨hrsv, hop⟩⟩
  have hno : ¬ ∃ i, decode r.cmd = .ok i := by
    rw [exists_decode_iff]
    omega
  rw [step_cons hreq hp, stepResponse_of_no_instruction hno]

/-- Settles O17: the lists of the statement are the columns of R37, and the reply is a function of
the ports they name. -/
theorem unreadPortsHaveNoEffect : Obligations.UnreadPortsHaveNoEffect := by
  intro i c r r' ha hb hamt
  rw [mem_iff_readsA] at ha
  rw [mem_iff_readsB] at hb
  rw [mem_iff_readsAmt] at hamt
  exact ⟨_, reply_eq i c r, reply_eq_of_agree c ha hb hamt ▸ reply_eq i c r⟩

/-- Settles O44: each of the four operand forms of R40 fills the ports its operation reads, and
`fill` keeps the others. -/
theorem assembledLineIsItsRequest : Obligations.AssembledLineIsItsRequest := by
  refine ⟨fun fill env l r h => ?_, fun fill env l i hm => ⟨?_, ?_, ?_, ?_⟩,
    fun env X Y n k => ⟨rfl, resolveBuffer_name_eq_ok, nofun⟩⟩
  · obtain ⟨i, hm⟩ := exists_mnemonicOf_of_assemble h
    refine ⟨i, hm, cmd_of_assemble hm h ▸ decode_encode i, fun hi => ?_, fun hi => ?_,
      fun hi => ?_, ?_, assemble_other_fill hm h⟩
    · obtain ⟨x, y, a, b, hargs, hx, hy, rfl⟩ := (assemble_two_buffers hm hi).1 h
      exact ⟨x, y, hargs, hx, hy, rfl⟩
    · obtain ⟨x, a, hargs, hx, rfl⟩ := (assemble_one_buffer hm hi).1 h
      exact ⟨x, hargs, hx, rfl, rfl⟩
    · obtain ⟨x, n, a, hargs, hx, rfl⟩ := (assemble_buffer_amount hm hi).1 h
      exact ⟨x, hargs, hx, rfl⟩
    · rintro rfl
      obtain ⟨n, hargs, rfl⟩ := (assemble_amount hm).1 h
      exact ⟨hargs, rfl, rfl⟩
  · exact fun hi x y a b hargs hx hy =>
      (assemble_two_buffers hm hi).2 ⟨x, y, a, b, hargs, hx, hy, rfl⟩
  · exact fun hi x a hargs hx => (assemble_one_buffer hm hi).2 ⟨x, a, hargs, hx, rfl⟩
  · exact fun hi x n a hargs hx => (assemble_buffer_amount hm hi).2 ⟨x, n, a, hargs, hx, rfl⟩
  · rintro rfl n hargs
    exact (assemble_amount hm).2 ⟨n, hargs, rfl⟩

/-- Settles O45: no word stands twice in the assembler's table, so a word reads as an operation
exactly when the table pairs them. -/
theorem aliasesEncodeAsTheirMnemonics : Obligations.AliasesEncodeAsTheirMnemonics := by
  intro m i
  rw [mnemonicOf_eq_some_iff]
  cases i <;> simp [mnemonicTable]

/-- Settles O1: the eleven bytes are the command bytes of the operations. -/
theorem writtenOutCommandBytesDecode : Obligations.WrittenOutCommandBytesDecode :=
  ⟨decode_encode .and, decode_encode .or, decode_encode .xor, decode_encode .not,
    decode_encode .shr, decode_encode .shl, decode_encode .rol, decode_encode .ror,
    decode_encode .testbit, decode_encode .bit, decode_encode .popcnt⟩

/-- Settles O20: a port's pattern is read in two's complement, which is the integer presented where
that is in range. -/
theorem amountIsTheSignedPortValue : Obligations.AmountIsTheSignedPortValue :=
  fun _ _ => ⟨fun _ _ hw hr => amount_of_port hw hr, amount_of_inf, amount_of_presentable⟩

end

section
/-! Proofs about the bitwise logic unit of spec/40_logic.md (R42 to R46): AND, OR and XOR are zips
of the operands and NOT is a map over its operand, so their laws are those of zip, of map and of the
byte. -/

namespace Sys2Proof.Machine

variable {c : Config} {r : Request} {f : Byte → Byte → Byte}

/-! ### The length of a result (R42) -/

theorem logicLen_eq_min {lenA lenB : Nat} (h : lenA = lenB ∨ c.logicLenPolicy = .zipTruncate) :
    logicLen c lenA lenB = .ok (min lenA lenB) := by
  unfold logicLen
  split
  · next heq => rw [← heq, min_self]
  · next hne => rw [h.resolve_left hne]

theorem logicLen_eq_mismatch {lenA lenB : Nat} (hne : lenA ≠ lenB)
    (hpol : c.logicLenPolicy = .fault) :
    logicLen c lenA lenB = .error (.lengthMismatch lenA lenB) := by
  rw [logicLen, if_neg hne, hpol]

/-! ### The result as a zip or a map (R43 to R46) -/

theorem build_min_eq_zipWith (f : Byte → Byte → Byte) (X Y : Buffer) :
    build (min X.length Y.length) (fun k => f (byteAt X k) (byteAt Y k)) = List.zipWith f X Y := by
  refine List.ext_getElem (by rw [build_length, List.length_zipWith]) fun k hk _ => ?_
  obtain ⟨hX, hY⟩ : k < X.length ∧ k < Y.length := by simpa [build_length] using hk
  simp [build, byteAt, hX, hY]

theorem complementBuffer_eq_map (X : Buffer) : complementBuffer X = X.map (~~~ ·) := by
  refine List.ext_getElem (by rw [complementBuffer_length, List.length_map]) fun k hk _ => ?_
  have hX : k < X.length := by rwa [complementBuffer_length] at hk
  simp [complementBuffer, build, byteAt, hX]

/-- The answer of AND, OR and XOR where R42 gives a length. -/
theorem bitwise_eq_zipWith (f : Byte → Byte → Byte)
    (h : r.lenA = r.lenB ∨ c.logicLenPolicy = .zipTruncate) :
    bitwise f c r = .ok (.buf (List.zipWith f r.a r.b)) := by
  simp only [bitwise, logicLen_eq_min h, build_min_eq_zipWith]

/-- The answer of AND, OR and XOR where R42 gives none. -/
theorem bitwise_eq_mismatch (f : Byte → Byte → Byte) (hne : r.lenA ≠ r.lenB)
    (hpol : c.logicLenPolicy = .fault) :
    bitwise f c r = .error (.lengthMismatch r.lenA r.lenB) := by
  simp only [bitwise, logicLen_eq_mismatch hne hpol]

/-- Everything AND, OR and XOR can answer without a fault. -/
theorem eq_zipWith_of_bitwise_eq_ok {res : Result} (h : bitwise f c r = .ok res) :
    res = .buf (List.zipWith f r.a r.b) := by
  cases hpol : c.logicLenPolicy with
  | zipTruncate => simpa [bitwise_eq_zipWith f (.inr hpol)] using h.symm
  | fault =>
    by_cases hlen : r.lenA = r.lenB
    · simpa [bitwise_eq_zipWith f (.inl hlen)] using h.symm
    · simp [bitwise_eq_mismatch f hlen hpol] at h

/-- R42 with one of R43, R44, R45, for an operation that applies the byte function `f`. -/
theorem logicRule_of_replyOf_eq_bitwise {i : Instr} (hi : replyOf i = bitwise f) :
    LogicRule i (encode i) f := by
  refine ⟨decode_encode i, fun s r rest hreq => ⟨fun h => ?_, fun hne hpol => ?_⟩⟩
  · refine ⟨List.zipWith f r.a r.b, ?_, List.length_zipWith, fun k x y hx hy => ?_⟩
    · rw [exec_cons hreq, hi, bitwise_eq_zipWith f h, toResponse]
    · exact List.getElem?_zipWith_eq_some.2 ⟨x, y, hx, hy, rfl⟩
  · rw [exec_cons hreq, hi, bitwise_eq_mismatch f hne hpol, toResponse]

theorem reply_eq_zipWith {i : Instr} (hi : replyOf i = bitwise f) (c : Config)
    (hlen : r.lenA = r.lenB) : reply i c r = some (.ok (.buf (List.zipWith f r.a r.b))) := by
  rw [reply_eq, hi, bitwise_eq_zipWith f (.inl hlen), toResponse]

theorem reply_not_eq_map (c : Config) (r : Request) :
    reply .not c r = some (.ok (.buf (r.a.map (~~~ ·)))) := by
  rw [← complementBuffer_eq_map]
  exact reply_eq .not c r

theorem reply_popcnt (c : Config) (r : Request) :
    reply .popcnt c r = some (.ok (.count (popCountOf r.a))) :=
  reply_eq .popcnt c r

/-! ### An operand with itself and with equal bytes (the corner cases of R43 to R45) -/

theorem reply_eq_map_of_same_operands {i : Instr} (hi : replyOf i = bitwise f) (c : Config)
    (hb : r.b = r.a) : reply i c r = some (.ok (.buf (r.a.map fun x => f x x))) := by
  rw [reply_eq_zipWith hi c (by rw [Request.lenB, hb]), hb, List.zipWith_self]

theorem reply_eq_map_of_replicate {i : Instr} {y : Byte} (hi : replyOf i = bitwise f) (c : Config)
    (hb : r.b = List.replicate r.lenA y) :
    reply i c r = some (.ok (.buf (r.a.map fun x => f x y))) := by
  have hlen : r.lenA = r.lenB := by rw [Request.lenB, hb, List.length_replicate]
  rw [reply_eq_zipWith hi c hlen, hb, ← List.map_const', List.zipWith_map_right, List.zipWith_self]

theorem xor_ones (x : Byte) : x ^^^ 0xff = ~~~ x := BitVec.xor_allOnes

/-! ### The set bits of an AND and of a NOT (the corner cases of R43 and R46) -/

/-- Every bit of `x & y` is a bit of `x`. -/
theorem pop8_and_le_left (x y : Byte) : pop8 (x &&& y) ≤ pop8 x := by
  rw [pop8_eq_count, pop8_eq_count]
  refine Nat.count_mono_left fun j _ hj => ?_
  rw [BitVec.getLsbD_and] at hj
  exact Bool.and_elim_left hj

theorem popCountOf_zipWith_and_le_left (X Y : Buffer) :
    popCountOf (List.zipWith (fun x y => x &&& y) X Y) ≤ popCountOf X := by
  induction X generalizing Y with
  | nil => exact le_rfl
  | cons x xs ih =>
    cases Y with
    | nil => exact Nat.zero_le _
    | cons y ys =>
      rw [List.zipWith_cons_cons, popCountOf_cons, popCountOf_cons]
      exact Nat.add_le_add (pop8_and_le_left x y) (ih ys)

theorem popCountOf_zipWith_and_le_right (X Y : Buffer) :
    popCountOf (List.zipWith (fun x y => x &&& y) X Y) ≤ popCountOf Y := by
  rw [List.zipWith_comm_of_comm BitVec.and_comm]
  exact popCountOf_zipWith_and_le_left Y X

theorem pop8_not_add_pop8 (x : Byte) : pop8 (~~~ x) + pop8 x = 8 := by
  revert x; decide

theorem popCountOf_map_not_add (X : Buffer) :
    popCountOf (X.map (~~~ ·)) + popCountOf X = 8 * X.length := by
  induction X with
  | nil => rfl
  | cons x xs ih =>
    have hx := pop8_not_add_pop8 x
    rw [List.map_cons, popCountOf_cons, popCountOf_cons, List.length_cons]
    omega

theorem map_not_map_not (X : Buffer) : (X.map (~~~ ·)).map (~~~ ·) = X := by
  simp [Function.comp_def]

end Sys2Proof.Machine

open Sys2Proof Sys2Proof.Machine

/-- Settles O21: the three operations share one rule and differ in the byte function. -/
theorem andOrXorResults : Obligations.AndOrXorResults :=
  ⟨logicRule_of_replyOf_eq_bitwise (i := .and) rfl, logicRule_of_replyOf_eq_bitwise (i := .or) rfl,
    logicRule_of_replyOf_eq_bitwise (i := .xor) rfl⟩

/-- Settles O22: NOT is a map over its operand, and `~x` is `255 - x` (R9). -/
theorem notResult : Obligations.NotResult := by
  refine ⟨decode_encode .not, fun s r rest hreq => ?_⟩
  refine ⟨complementBuffer r.a, exec_cons hreq .not, complementBuffer_length r.a, fun k x hx => ?_⟩
  refine ⟨~~~ x, ?_, complement_toNat x⟩
  rw [complementBuffer_eq_map, List.getElem?_map, hx, Option.map_some]

/-- Settles O23: in each of the three choices of `B` the answer is a map over `A`, and its byte
function is the identity, constantly 0 or the complement. -/
theorem logicIdentities : Obligations.LogicIdentities := by
  intro c r
  refine ⟨fun hb => ?_, fun hb => ?_, fun hb => ?_⟩
  · simp [reply_eq_map_of_same_operands (i := .and) rfl c hb,
      reply_eq_map_of_same_operands (i := .or) rfl c hb,
      reply_eq_map_of_same_operands (i := .xor) rfl c hb]
  · simp [reply_eq_map_of_replicate (i := .or) rfl c hb,
      reply_eq_map_of_replicate (i := .xor) rfl c hb]
  · refine ⟨r.a.map (~~~ ·), ?_, reply_not_eq_map c r⟩
    simp only [reply_eq_map_of_replicate (i := .xor) rfl c hb, xor_ones]

/-- Settles O24: the answer is the zip of the operands under either policy, and no byte of it has a
bit that the operand's byte has not. -/
theorem andPopcountAtMostEither : Obligations.AndPopcountAtMostEither := by
  intro c r R hR
  have hand : bitwise (fun x y => x &&& y) c r = .ok (.buf R) := by
    rw [reply_eq, Option.some_inj] at hR
    exact toResponse_eq_ok.1 hR
  obtain rfl : R = List.zipWith (fun x y => x &&& y) r.a r.b := by
    simpa using eq_zipWith_of_bitwise_eq_ok hand
  exact ⟨_, _, _, reply_popcnt _ _, reply_popcnt _ _, reply_popcnt _ _,
    le_min (popCountOf_zipWith_and_le_left _ _) (popCountOf_zipWith_and_le_right _ _)⟩

/-- Settles O25: both laws hold byte by byte. -/
theorem complementLaws : Obligations.ComplementLaws := by
  intro c r
  refine ⟨r.a.map (~~~ ·), _, _, reply_not_eq_map c r, ?_, reply_popcnt _ _, reply_popcnt _ _,
    popCountOf_map_not_add r.a⟩
  rw [reply_not_eq_map, map_not_map_not]

end

section
/-! Proofs about the barrel shifter of spec/41_shift.md (R47 to R52). A shift is what it does to the
length and to the little-endian value: with `b` the amount modulo 8, SHL multiplies the value by
`2^b`, SHR cuts it to the kept bytes and divides it by `2^b`. The laws of R51 and R52 are then
arithmetic of natural numbers, because length and value determine a buffer. -/

namespace Sys2Proof.Machine

/-! ### What the two shifts answer (R49, R50) -/

theorem shrBuffer_of_nonpos {X : Buffer} {i : Int} (h : i ≤ 0) : shrBuffer X i = X := by
  rw [shrBuffer, if_pos h]

theorem shlBuffer_of_nonpos {X : Buffer} {i : Int} (h : i ≤ 0) : shlBuffer X i = X := by
  rw [shlBuffer, if_pos h]

theorem shlReply_of_exceeds {c : Config} {r : Request} (hi : 0 < amount c r)
    (h : exceeds c (r.lenA + ceilDiv8 (amount c r).toNat) = true) :
    shlReply c r = .error (.capacity (r.lenA + ceilDiv8 (amount c r).toNat)) :=
  if_pos ⟨hi, h⟩

theorem shlReply_of_fits {c : Config} {r : Request}
    (h : ¬ (0 < amount c r ∧ exceeds c (r.lenA + ceilDiv8 (amount c r).toNat) = true)) :
    shlReply c r = .ok (.buf (shlBuffer r.a (amount c r))) :=
  if_neg h

/-- The one buffer an SHL that answers can give. -/
theorem eq_shlBuffer_of_reply {c : Config} {r : Request} {R : Buffer}
    (h : reply .shl c r = some (.ok (.buf R))) : R = shlBuffer r.a (amount c r) := by
  rw [reply_eq, Option.some_inj, toResponse_eq_ok] at h
  by_cases hbad : 0 < amount c r ∧ exceeds c (r.lenA + ceilDiv8 (amount c r).toNat) = true
  · rw [replyOf, shlReply_of_exceeds hbad.1 hbad.2] at h
    cases h
  · rw [replyOf, shlReply_of_fits hbad] at h
    cases h
    rfl

/-- The one buffer SHR gives. -/
theorem eq_shrBuffer_of_reply {c : Config} {r : Request} {R : Buffer}
    (h : reply .shr c r = some (.ok (.buf R))) : R = shrBuffer r.a (amount c r) := by
  rw [reply_eq] at h
  cases h
  rfl

/-! ### Lengths for every amount (R49, R50) -/

theorem length_shlBuffer (X : Buffer) (i : Int) :
    (shlBuffer X i).length = X.length + (i.toNat + 7) / 8 := by
  by_cases hi : 0 < i
  · exact shlBuffer_length hi
  · rw [shlBuffer_of_nonpos (not_lt.1 hi)]
    omega

theorem length_shrBuffer (X : Buffer) (i : Int) :
    (shrBuffer X i).length = X.length - i.toNat / 8 := by
  by_cases hi : 0 < i
  · exact (shrBuffer_byteAt hi).1
  · rw [shrBuffer_of_nonpos (not_lt.1 hi)]
    omega

/-! ### The little-endian value of a shifted buffer (R51) -/

/-- A byte put together from two neighbours takes its low `n` bits from the one and the others from
the other. -/
theorem getLsbD_shiftLeft_or_shiftRight (x y : Byte) {n j : Nat} (hn : n ≤ 8) (hj : j < 8) :
    (x <<< n ||| y >>> (8 - n)).getLsbD j =
      if j < n then y.getLsbD (8 - n + j) else x.getLsbD (j - n) := by
  rw [BitVec.getLsbD_or, BitVec.getLsbD_shiftLeft, BitVec.getLsbD_ushiftRight]
  split
  · next h => simp [h]
  · next h =>
    rw [BitVec.getLsbD_of_ge y (8 - n + j) (by omega)]
    simp [h, hj]

theorem pow_256_eq_two_pow (n : Nat) : 256 ^ n = 2 ^ (8 * n) := by
  rw [pow_mul]
  rfl

/-- Bit `j` of the result of SHL is bit `j - b` of the operand. -/
theorem testBit_vLE_shlBuffer (X : Buffer) {i : Int} (hi : 0 < i) (j : Nat) :
    (vLE (shlBuffer X i)).testBit j =
      (decide (i.toNat % 8 ≤ j) && (vLE X).testBit (j - i.toNat % 8)) := by
  have hlen := length_shlBuffer X i
  rw [vLE_testBit, vLE_testBit]
  by_cases hk : j / 8 < X.length + (i.toNat + 7) / 8
  · rw [shlBuffer_byteAt hi _ hk, getLsbD_shiftLeft_or_shiftRight _ _ (by omega) (by omega)]
    by_cases hcarry : j % 8 < i.toNat % 8
    · rw [if_pos hcarry]
      by_cases hfirst : j / 8 = 0
      · have hj : ¬ i.toNat % 8 ≤ j := by omega
        simp [hfirst, hj]
      · have hj : i.toNat % 8 ≤ j := by omega
        have hdiv : (j - i.toNat % 8) / 8 = j / 8 - 1 := by omega
        have hmod : (j - i.toNat % 8) % 8 = 8 - i.toNat % 8 + j % 8 := by omega
        simp [hfirst, hj, hdiv, hmod]
    · have hj : i.toNat % 8 ≤ j := by omega
      have hdiv : (j - i.toNat % 8) / 8 = j / 8 := by omega
      have hmod : (j - i.toNat % 8) % 8 = j % 8 - i.toNat % 8 := by omega
      simp [hcarry, hj, hdiv, hmod]
  · have hX : X.length ≤ (j - i.toNat % 8) / 8 := by omega
    rw [byteAt_of_le (by omega), byteAt_of_le hX]
    simp

/-- Bit `j` of the result of SHR is bit `j + b` of the bytes it keeps. -/
theorem testBit_vLE_shrBuffer (X : Buffer) {i : Int} (hi : 0 < i) (j : Nat) :
    (vLE (shrBuffer X i)).testBit j =
      (decide (j + i.toNat % 8 < 8 * (X.length - i.toNat / 8)) &&
        (vLE X).testBit (j + i.toNat % 8)) := by
  obtain ⟨hlen, hbyte⟩ := shrBuffer_byteAt (X := X) hi
  rw [vLE_testBit, vLE_testBit]
  generalize X.length - i.toNat / 8 = N at *
  by_cases hk : j / 8 < N
  · have hsplit := getLsbD_shiftLeft_or_shiftRight
      (if j / 8 + 1 < N then byteAt X (j / 8 + 1) else 0) (byteAt X (j / 8))
      (n := 8 - i.toNat % 8) (j := j % 8) (by omega) (by omega)
    rw [show 8 - (8 - i.toNat % 8) = i.toNat % 8 by omega] at hsplit
    rw [hbyte _ hk, BitVec.or_comm, hsplit]
    by_cases hown : j % 8 < 8 - i.toNat % 8
    · have hj : j + i.toNat % 8 < 8 * N := by omega
      have hdiv : (j + i.toNat % 8) / 8 = j / 8 := by omega
      have hmod : (j + i.toNat % 8) % 8 = i.toNat % 8 + j % 8 := by omega
      simp [hown, hj, hdiv, hmod]
    · have hj : j + i.toNat % 8 < 8 * N ↔ j / 8 + 1 < N := by omega
      have hdiv : (j + i.toNat % 8) / 8 = j / 8 + 1 := by omega
      have hmod : (j + i.toNat % 8) % 8 = j % 8 - (8 - i.toNat % 8) := by omega
      rw [if_neg hown, hdiv, hmod]
      by_cases hnext : j / 8 + 1 < N <;> simp [hj, hnext]
  · have hj : ¬ j + i.toNat % 8 < 8 * N := by omega
    rw [byteAt_of_le (by omega)]
    simp [hj]

/-- SHL multiplies the value by `2^b`; an amount of 0 or less has `b = 0`. -/
theorem vLE_shlBuffer (X : Buffer) (i : Int) :
    vLE (shlBuffer X i) = vLE X * 2 ^ (i.toNat % 8) := by
  by_cases hi : 0 < i
  · refine Nat.eq_of_testBit_eq fun j => ?_
    rw [testBit_vLE_shlBuffer X hi, Nat.testBit_mul_two_pow]
  · rw [shlBuffer_of_nonpos (not_lt.1 hi), Int.toNat_of_nonpos (not_lt.1 hi)]
    simp

/-- SHR cuts the value to the kept bytes and divides it by `2^b`; an amount of 0 or less keeps all
bytes and has `b = 0`. -/
theorem vLE_shrBuffer (X : Buffer) (i : Int) :
    vLE (shrBuffer X i) = vLE X % 256 ^ (X.length - i.toNat / 8) / 2 ^ (i.toNat % 8) := by
  by_cases hi : 0 < i
  · refine Nat.eq_of_testBit_eq fun j => ?_
    rw [testBit_vLE_shrBuffer X hi, Nat.testBit_div_two_pow, pow_256_eq_two_pow,
      Nat.testBit_mod_two_pow]
  · rw [shrBuffer_of_nonpos (not_lt.1 hi), Int.toNat_of_nonpos (not_lt.1 hi)]
    simp [Nat.mod_eq_of_lt (vLE_lt X)]

theorem eq_leBytes {R : Buffer} {n v : Nat} (hlen : R.length = n) (hv : vLE R = v) :
    R = leBytes v n := by
  rw [← hlen, ← hv, leBytes_vLE]

/-! ### SHL and then SHR (R51) -/

/-- The bytes that the second shift keeps hold the whole value, so that the division undoes the
multiplication. -/
theorem vLE_shrBuffer_shlBuffer (X : Buffer) (i : Int) :
    vLE (shrBuffer (shlBuffer X i) i) = vLE X := by
  have hfits : vLE X * 2 ^ (i.toNat % 8) < 256 ^ (X.length + (i.toNat + 7) / 8 - i.toNat / 8) := by
    calc vLE X * 2 ^ (i.toNat % 8)
        < 256 ^ X.length * 2 ^ (i.toNat % 8) :=
          Nat.mul_lt_mul_of_pos_right (vLE_lt X) (by positivity)
      _ = 2 ^ (8 * X.length + i.toNat % 8) := by rw [pow_256_eq_two_pow, pow_add]
      _ ≤ 2 ^ (8 * (X.length + (i.toNat + 7) / 8 - i.toNat / 8)) :=
          Nat.pow_le_pow_right two_pos (by omega)
      _ = _ := (pow_256_eq_two_pow _).symm
  rw [vLE_shrBuffer, vLE_shlBuffer, length_shlBuffer, Nat.mod_eq_of_lt hfits,
    Nat.mul_div_cancel _ (by positivity)]

/-! ### Two shifts in a row (R52) -/

/-- Two left shifts compose to one where one of them moves whole bytes. -/
theorem shlBuffer_shlBuffer (X : Buffer) {m n : Int} (hm : 0 ≤ m) (hn : 0 ≤ n)
    (h : m % 8 = 0 ∨ n % 8 = 0) : shlBuffer X (m + n) = shlBuffer (shlBuffer X m) n := by
  refine eq_of_vLE ?_ ?_
  · rw [length_shlBuffer, length_shlBuffer, length_shlBuffer]
    omega
  · have hrem : (m + n).toNat % 8 = m.toNat % 8 + n.toNat % 8 := by omega
    rw [vLE_shlBuffer, vLE_shlBuffer, vLE_shlBuffer, hrem, pow_add, mul_assoc]

/-- Where neither left shift moves whole bytes, they differ from one shift: in their length if the
remainders stay below 8, because each of the two appends a byte, and in their value otherwise. -/
theorem shlBuffer_ne_shlBuffer (X : Buffer) {m n : Int} (hm : 0 ≤ m) (hn : 0 ≤ n)
    (hm8 : m % 8 ≠ 0) (hn8 : n % 8 ≠ 0) (hX : vLE X ≠ 0) :
    shlBuffer X (m + n) ≠ shlBuffer (shlBuffer X m) n := by
  intro heq
  have hlen := congrArg List.length heq
  rw [length_shlBuffer, length_shlBuffer, length_shlBuffer] at hlen
  have hv := congrArg vLE heq
  rw [vLE_shlBuffer, vLE_shlBuffer, vLE_shlBuffer, mul_assoc, ← pow_add] at hv
  have hrem : (m + n).toNat % 8 = m.toNat % 8 + n.toNat % 8 :=
    Nat.pow_right_injective le_rfl (Nat.eq_of_mul_eq_mul_left (Nat.pos_of_ne_zero hX) hv)
  omega

/-- Two right shifts compose to one where the first moves whole bytes, or where the second adds to
the remainder of the first without reaching a whole byte. -/
theorem shrBuffer_shrBuffer (X : Buffer) {m n : Int} (hm : 0 ≤ m) (hn : 0 ≤ n)
    (h : m % 8 = 0 ∨ m % 8 + n < 8) : shrBuffer X (m + n) = shrBuffer (shrBuffer X m) n := by
  have hdiv : (m + n).toNat / 8 = m.toNat / 8 + n.toNat / 8 := by omega
  have hmod : (m + n).toNat % 8 = m.toNat % 8 + n.toNat % 8 := by omega
  have hlen : X.length - (m.toNat / 8 + n.toNat / 8) = X.length - m.toNat / 8 - n.toNat / 8 :=
    Nat.sub_add_eq _ _ _
  refine eq_of_vLE ?_ ?_
  · rw [length_shrBuffer, length_shrBuffer, length_shrBuffer, hdiv, hlen]
  · rw [vLE_shrBuffer, vLE_shrBuffer, vLE_shrBuffer, length_shrBuffer, hdiv, hmod, hlen, pow_add,
      ← Nat.div_div_eq_div_mul]
    congr 1
    rcases h with hwhole | hsmall
    · have hb : m.toNat % 8 = 0 := by omega
      rw [hb, pow_zero, Nat.div_one, Nat.div_one,
        Nat.mod_mod_of_dvd _ (Nat.pow_dvd_pow 256 (Nat.sub_le _ _))]
    · have hq : n.toNat / 8 = 0 := by omega
      have hlt : vLE X % 256 ^ (X.length - m.toNat / 8) < 256 ^ (X.length - m.toNat / 8) :=
        Nat.mod_lt _ (by positivity)
      rw [hq, Nat.sub_zero, Nat.mod_eq_of_lt ((Nat.div_le_self _ _).trans_lt hlt)]

end Sys2Proof.Machine

open Sys2Proof Sys2Proof.Machine

/-- Settles O26: TRUNC is a `take` and PAD a `++`, read at one index. -/
theorem truncAndPadBytes : Obligations.TruncAndPadBytes := by
  intro X n k
  refine ⟨trunc_length X n, pad_length X n, fun hk => ?_, fun hk => ?_, fun hX hk => ?_⟩
  · exact List.getElem?_take_of_lt hk
  · exact List.getElem?_append_left hk
  · rw [getElem?_eq_byteAt (by rwa [pad_length]), byteAt_pad, byteAt_of_le hX]

/-- Settles O27: SHR raises nothing, and `shrBuffer_byteAt` says what each byte is. -/
theorem shrResult : Obligations.ShrResult := by
  refine ⟨decode_encode .shr, fun s r rest hreq => ?_⟩
  refine ⟨shrBuffer r.a (amount s.config r), exec_cons hreq .shr, shrBuffer_of_nonpos,
    fun hi => ?_⟩
  obtain ⟨hlen, hbyte⟩ := shrBuffer_byteAt (X := r.a) hi
  refine ⟨hlen, fun k hk => ?_⟩
  rw [getElem?_eq_byteAt (hk.trans_eq hlen.symm), hbyte k hk]
  rfl

/-- Settles O28: the three cases are those of `shlReply`, and `shlBuffer_byteAt` says what each byte
is. -/
theorem shlResult : Obligations.ShlResult := by
  refine ⟨decode_encode .shl, fun s r rest hreq => ?_⟩
  refine ⟨fun hi => ?_, fun hi hbig => ?_, fun hi hfit => ?_⟩
  · rw [exec_cons hreq, replyOf, shlReply_of_fits fun h => hi.not_gt h.1, shlBuffer_of_nonpos hi]
    rfl
  · rw [exec_cons hreq, replyOf, shlReply_of_exceeds hi ((exceeds_iff _ _).2 hbig)]
    rfl
  · have hlen := length_shlBuffer r.a (amount s.config r)
    refine ⟨shlBuffer r.a (amount s.config r), ?_, hlen, fun k hk => ?_⟩
    · rw [exec_cons hreq, replyOf, shlReply_of_fits fun h => hfit ((exceeds_iff _ _).1 h.2)]
      rfl
    · rw [getElem?_eq_byteAt (hk.trans_eq hlen.symm), shlBuffer_byteAt hi k hk]
      rfl

/-- Settles O29: the values are those of `vLE_shlBuffer` and `vLE_shrBuffer`, and length and value
determine the buffer. -/
theorem shifterNetEffect : Obligations.ShifterNetEffect := by
  refine fun c r R _ => ⟨fun hR => ?_, fun hR => ?_⟩
  · obtain rfl := eq_shlBuffer_of_reply hR
    have hv := vLE_shlBuffer r.a (amount c r)
    exact ⟨eq_leBytes (length_shlBuffer _ _) hv, hv⟩
  · obtain rfl := eq_shrBuffer_of_reply hR
    have hv := vLE_shrBuffer r.a (amount c r)
    exact ⟨eq_leBytes (length_shrBuffer _ _) hv, hv⟩

/-- Settles O30: the two shifts keep the value, so that the length decides between `A` and `A` with
one zero byte behind it. -/
theorem shlThenShr : Obligations.ShlThenShr := by
  intro c r r' R R' i hR ha hi hR'
  have hboth : R' = shrBuffer (shlBuffer r.a i) i := by
    rw [eq_shrBuffer_of_reply hR', hi, ha, eq_shlBuffer_of_reply hR]
  have hv : vLE R' = vLE r.a := by rw [hboth, vLE_shrBuffer_shlBuffer]
  have hlen : R'.length = r.a.length + (i.toNat + 7) / 8 - i.toNat / 8 := by
    rw [hboth, length_shrBuffer, length_shlBuffer]
  refine ⟨fun hpos hlt => eq_of_vLE ?_ ?_, fun hnn h8 => eq_of_vLE ?_ hv⟩
  · rw [hlen, List.length_append, List.length_singleton]
    omega
  · rw [hv, vLE_append]
    simp [vLE]
  · rw [hlen]
    omega

/-- Settles O31: the three answers are the buffers of `shlBuffer` and of `shrBuffer`, whose
composition the lemmas above decide. -/
theorem shiftComposition : Obligations.ShiftComposition := by
  intro c r1 r2 r3 R1 R2 R3 m n hm hn h3 ha3 ha2
  refine ⟨fun hR1 hR2 hR3 => ?_, fun hR1 hR2 hR3 => ?_⟩
  · rw [eq_shlBuffer_of_reply hR3, eq_shlBuffer_of_reply hR2, h3, ha3, ha2,
      eq_shlBuffer_of_reply hR1]
    exact ⟨shlBuffer_shlBuffer r1.a hm hn, shlBuffer_ne_shlBuffer r1.a hm hn⟩
  · rw [eq_shrBuffer_of_reply hR3, eq_shrBuffer_of_reply hR2, h3, ha3, ha2,
      eq_shrBuffer_of_reply hR1]
    exact shrBuffer_shrBuffer r1.a hm hn

end

section
/-! Proofs about the rotator of spec/42_rotate.md (R53 to R56). A rotation is what it does to the
bits of the big-endian integer of the buffer, read at any integer index modulo its width: ROTB by
`n` moves them by `8n`, ROL by `i` moves them up by `i` and ROR down by `i`. The laws of R56 are
then arithmetic of indices, because length and bits determine a buffer. -/

namespace Sys2Proof.Machine

/-! ### What the two rotations answer (R54, R55) -/

/-- What ROL and ROR have in common: a negative amount faults (R65), any other one rotates `A`. -/
def rotateReply (f : Buffer → Nat → Buffer) (c : Config) (r : Request) : Reply :=
  if amount c r < 0 then .error (.negAmount (amount c r))
  else .ok (.buf (f r.a (amount c r).toNat))

theorem replyOf_rol : replyOf .rol = rotateReply rolBuffer := rfl

theorem replyOf_ror : replyOf .ror = rotateReply rorBuffer := rfl

section
variable {f g : Buffer → Nat → Buffer} {c : Config} {r : Request}

theorem rotateReply_of_neg (h : amount c r < 0) :
    rotateReply f c r = .error (.negAmount (amount c r)) :=
  if_pos h

theorem rotateReply_of_nonneg (h : 0 ≤ amount c r) :
    rotateReply f c r = .ok (.buf (f r.a (amount c r).toNat)) :=
  if_neg h.not_gt

variable {i j : Instr} {s : State} {rest : List Request}

theorem exec_rotate_of_neg (hi : replyOf i = rotateReply f) (hreq : s.requests = r :: rest)
    (h : amount s.config r < 0) :
    exec i s = .next (s.after r rest (.fault (.negAmount (amount s.config r)))) := by
  rw [exec_cons hreq, hi, rotateReply_of_neg h]
  rfl

theorem exec_rotate_of_nonneg (hi : replyOf i = rotateReply f) (hreq : s.requests = r :: rest)
    (h : 0 ≤ amount s.config r) :
    exec i s = .next (s.after r rest (.ok (.buf (f r.a (amount s.config r).toNat)))) := by
  rw [exec_cons hreq, hi, rotateReply_of_nonneg h]
  rfl

/-- A rotation that answers with a buffer has a natural number as its amount. -/
theorem exists_natCast_amount_of_rotate (hi : replyOf i = rotateReply f) {R : Buffer}
    (h : reply i c r = some (.ok (.buf R))) : ∃ n : Nat, amount c r = n ∧ R = f r.a n := by
  rw [reply_eq, Option.some_inj, toResponse_eq_ok, hi] at h
  by_cases hneg : amount c r < 0
  · rw [rotateReply_of_neg hneg] at h
    cases h
  · have hnonneg := not_lt.1 hneg
    rw [rotateReply_of_nonneg hnonneg] at h
    cases h
    exact ⟨_, (Int.toNat_of_nonneg hnonneg).symm, rfl⟩

variable {r1 r2 r3 : Request} {R1 R2 R3 : Buffer}

/-- Where `g` undoes `f`, the one rotation undoes the other by the same amount. -/
theorem reply_rotate_undo (hi : replyOf i = rotateReply f) (hj : replyOf j = rotateReply g)
    (hgf : ∀ X n, g (f X n) n = X) (h2 : r2.a = R1)
    (hR1 : reply i c r1 = some (.ok (.buf R1))) (hR2 : reply j c r2 = some (.ok (.buf R2)))
    (hmn : amount c r1 = amount c r2) : R2 = r1.a := by
  obtain ⟨m, hm, rfl⟩ := exists_natCast_amount_of_rotate hi hR1
  obtain ⟨n, hn, rfl⟩ := exists_natCast_amount_of_rotate hj hR2
  obtain rfl : m = n := Int.natCast_inj.1 (hm.symm.trans (hmn.trans hn))
  rw [h2, hgf]

/-- Where `f` adds its amounts modulo the width, so do two rotations in a row. -/
theorem reply_rotate_compose (hi : replyOf i = rotateReply f)
    (hadd : ∀ (X : Buffer) {m n k : Nat},
      (k : Int) ≡ m + n [ZMOD 8 * X.length] → f X k = f (f X m) n)
    (h2 : r2.a = R1) (h3 : r3.a = r1.a)
    (hR1 : reply i c r1 = some (.ok (.buf R1))) (hR2 : reply i c r2 = some (.ok (.buf R2)))
    (hR3 : reply i c r3 = some (.ok (.buf R3)))
    (hsum : amount c r3 ≡ amount c r1 + amount c r2 [ZMOD 8 * r1.a.length]) : R3 = R2 := by
  obtain ⟨m, hm, rfl⟩ := exists_natCast_amount_of_rotate hi hR1
  obtain ⟨n, hn, rfl⟩ := exists_natCast_amount_of_rotate hi hR2
  obtain ⟨k, hk, rfl⟩ := exists_natCast_amount_of_rotate hi hR3
  rw [hk, hm, hn] at hsum
  rw [h2, h3, hadd r1.a hsum]

end

/-! ### Bytes at an index modulo the length -/

/-- Byte `k mod L` of a buffer of length `L`, for any integer `k`. -/
def cyclicByte (X : Buffer) (k : Int) : Byte := byteAt X (k % (X.length : Int)).toNat

theorem cyclicByte_natCast (X : Buffer) (k : Nat) : cyclicByte X k = byteAt X (k % X.length) := by
  rw [cyclicByte, ← Int.natCast_mod, Int.toNat_natCast]

theorem cyclicByte_of_length_eq_zero {X : Buffer} (h : X.length = 0) (k : Int) :
    cyclicByte X k = 0 :=
  byteAt_of_le (by omega)

theorem cyclicByte_add_length_mul (X : Buffer) (k t : Int) :
    cyclicByte X (k + X.length * t) = cyclicByte X k := by
  rw [cyclicByte, cyclicByte, Int.add_mul_emod_self_left]

/-- The remainder may be taken before an offset is added. -/
theorem cyclicByte_emod_add (X : Buffer) (k m : Int) :
    cyclicByte X (k % (X.length : Int) + m) = cyclicByte X (k + m) := by
  rw [cyclicByte, cyclicByte, Int.emod_add_emod]

theorem cyclicByte_rotb (X : Buffer) (n k : Int) :
    cyclicByte (rotb X n) k = cyclicByte X (k + n) := by
  rcases Nat.eq_zero_or_pos X.length with hL | hL
  · rw [cyclicByte_of_length_eq_zero hL, cyclicByte_of_length_eq_zero ((rotb_length X n).trans hL)]
  · obtain ⟨hcast, hlt⟩ := emod_toNat k X.length hL
    rw [cyclicByte, rotb_length, rotb_byteAt X n hlt, hcast]
    exact cyclicByte_emod_add X k n

/-- `rolBuffer_byteAt` at every integer index (R54). -/
theorem cyclicByte_rolBuffer (X : Buffer) (i : Nat) (k : Int) :
    cyclicByte (rolBuffer X i) k =
      cyclicByte X (k + (i / 8 : Nat)) <<< (i % 8) |||
        cyclicByte X (k + (i / 8 : Nat) + 1) >>> (8 - i % 8) := by
  rcases Nat.eq_zero_or_pos X.length with hL | hL
  · simp [cyclicByte_of_length_eq_zero hL,
      cyclicByte_of_length_eq_zero ((rolBuffer_length X i).trans hL)]
  · obtain ⟨hcast, hlt⟩ := emod_toNat k X.length hL
    rw [cyclicByte, rolBuffer_length, rolBuffer_byteAt X i hlt, ← cyclicByte_natCast,
      ← cyclicByte_natCast]
    push_cast
    rw [hcast, add_assoc, add_assoc, cyclicByte_emod_add, cyclicByte_emod_add]

/-- `rorBuffer_byteAt` at every integer index (R55). -/
theorem cyclicByte_rorBuffer (X : Buffer) (i : Nat) (k : Int) :
    cyclicByte (rorBuffer X i) k =
      cyclicByte X (k - (i / 8 : Nat)) >>> (i % 8) |||
        cyclicByte X (k - (i / 8 : Nat) - 1) <<< (8 - i % 8) := by
  rcases Nat.eq_zero_or_pos X.length with hL | hL
  · simp [cyclicByte_of_length_eq_zero hL,
      cyclicByte_of_length_eq_zero ((rorBuffer_length X i).trans hL)]
  · obtain ⟨hcast, hlt⟩ := emod_toNat k X.length hL
    rw [cyclicByte, rorBuffer_length, rorBuffer_byteAt X i hlt, hcast, ← cyclicByte, ← cyclicByte,
      sub_sub, sub_sub, sub_eq_add_neg, sub_eq_add_neg, cyclicByte_emod_add, cyclicByte_emod_add,
      ← sub_eq_add_neg, ← sub_eq_add_neg]

/-! ### Bits of the big-endian integer at an index modulo the width (R26) -/

/-- Bit `p mod 8L` of the big-endian integer of a buffer of length `L`, for any integer `p`: byte 0
is the most significant one. -/
def cyclicBit (X : Buffer) (p : Int) : Bool :=
  (cyclicByte X (-1 - p / 8)).getLsbD (p % 8).toNat

theorem getLsbD_cyclicByte (X : Buffer) (k : Int) {j : Nat} (hj : j < 8) :
    (cyclicByte X k).getLsbD j = cyclicBit X (8 * (-1 - k) + j) := by
  have hdiv : -1 - (8 * (-1 - k) + j) / 8 = k := by omega
  have hmod : ((8 * (-1 - k) + j) % 8).toNat = j := by omega
  rw [cyclicBit, hdiv, hmod]

theorem cyclicBit_add_width_mul (X : Buffer) (p t : Int) :
    cyclicBit X (p + 8 * X.length * t) = cyclicBit X p := by
  have hdiv : -1 - (p + 8 * X.length * t) / 8 = -1 - p / 8 + X.length * -t := by
    rw [mul_assoc, Int.add_mul_ediv_left _ _ (by decide)]
    ring
  have hmod : (p + 8 * X.length * t) % 8 = p % 8 := by
    rw [mul_assoc, Int.add_mul_emod_self_left]
  rw [cyclicBit, cyclicBit, hdiv, hmod, cyclicByte_add_length_mul]

theorem cyclicBit_congr (X : Buffer) {p p' : Int} (h : p ≡ p' [ZMOD 8 * X.length]) :
    cyclicBit X p = cyclicBit X p' := by
  obtain ⟨t, ht⟩ := h.dvd
  rw [← cyclicBit_add_width_mul X p t, ← ht, add_sub_cancel]

/-- The cyclic bits from 0 to `8L - 1` are the bits of the big-endian integer. -/
theorem testBit_vBE {X : Buffer} {j : Nat} (hj : j < 8 * X.length) :
    (vBE X).testBit j = cyclicBit X j := by
  have hk : j / 8 < X.length := by omega
  have hpos : (j : Int) =
      8 * (-1 - ((X.length - 1 - j / 8 : Nat) : Int)) + (j % 8 : Nat) + 8 * X.length * 1 := by
    omega
  rw [vBE_eq_vLE_reverse, vLE_testBit, byteAt_reverse hk, hpos, cyclicBit_add_width_mul,
    ← getLsbD_cyclicByte X _ (Nat.mod_lt j (by decide)), cyclicByte_natCast,
    Nat.mod_eq_of_lt (a := X.length - 1 - j / 8) (by omega)]

theorem vBE_lt_two_pow (X : Buffer) : vBE X < 2 ^ (8 * X.length) :=
  (vBE_lt X).trans_eq (pow_256_eq_two_pow _)

theorem testBit_vBE_of_le {X : Buffer} {j : Nat} (hj : 8 * X.length ≤ j) :
    (vBE X).testBit j = false :=
  Nat.testBit_lt_two_pow ((vBE_lt_two_pow X).trans_le (Nat.pow_le_pow_right two_pos hj))

theorem eq_beBytes {R : Buffer} {n v : Nat} (hlen : R.length = n) (hv : vBE R = v) :
    R = beBytes v n := by
  rw [← hlen, ← hv, beBytes_vBE]

/-- A buffer is determined by its length and its cyclic bits. -/
theorem eq_of_cyclicBit {X Y : Buffer} (hlen : X.length = Y.length)
    (h : ∀ p, cyclicBit X p = cyclicBit Y p) : X = Y := by
  rw [eq_beBytes hlen (v := vBE Y) ?_, beBytes_vBE]
  refine Nat.eq_of_testBit_eq fun j => ?_
  by_cases hj : j < 8 * X.length
  · rw [testBit_vBE hj, testBit_vBE (hlen ▸ hj), h]
  · rw [testBit_vBE_of_le (not_lt.1 hj), testBit_vBE_of_le (hlen ▸ not_lt.1 hj)]

/-! ### A rotation moves the cyclic bits (R53 to R55) -/

theorem cyclicBit_rotb (X : Buffer) (n p : Int) :
    cyclicBit (rotb X n) p = cyclicBit X (p - 8 * n) := by
  have hj : (p % 8).toNat < 8 := by omega
  rw [cyclicBit, cyclicByte_rotb, getLsbD_cyclicByte X _ hj]
  congr 1
  omega

theorem cyclicBit_rolBuffer (X : Buffer) (i : Nat) (p : Int) :
    cyclicBit (rolBuffer X i) p = cyclicBit X (p - i) := by
  have hj : (p % 8).toNat < 8 := by omega
  rw [cyclicBit, cyclicByte_rolBuffer, getLsbD_shiftLeft_or_shiftRight _ _ (by omega) hj]
  split <;>
  · rw [getLsbD_cyclicByte X _ (by omega)]
    congr 1
    omega

/-- `getLsbD_shiftLeft_or_shiftRight` for the right shift of the first byte. -/
theorem getLsbD_shiftRight_or_shiftLeft (x y : Byte) {n j : Nat} (hn : n ≤ 8) (hj : j < 8) :
    (x >>> n ||| y <<< (8 - n)).getLsbD j =
      if j < 8 - n then x.getLsbD (n + j) else y.getLsbD (j - (8 - n)) := by
  have hsplit := getLsbD_shiftLeft_or_shiftRight y x (Nat.sub_le 8 n) hj
  rwa [Nat.sub_sub_self hn, BitVec.or_comm] at hsplit

theorem cyclicBit_rorBuffer (X : Buffer) (i : Nat) (p : Int) :
    cyclicBit (rorBuffer X i) p = cyclicBit X (p + i) := by
  have hj : (p % 8).toNat < 8 := by omega
  rw [cyclicBit, cyclicByte_rorBuffer, getLsbD_shiftRight_or_shiftLeft _ _ (by omega) hj]
  split <;>
  · rw [getLsbD_cyclicByte X _ (by omega)]
    congr 1
    omega

/-! ### The big-endian integer of a rotated buffer (R56) -/

/-- The `W`-bit rotation of `V` to the left by `s ≤ W`, bit by bit. -/
theorem testBit_rotated {V W s j : Nat} (hV : V < 2 ^ W) (hs : s ≤ W) (hj : j < W) :
    (((V <<< s) ||| (V >>> (W - s))) % 2 ^ W).testBit j =
      V.testBit (if s ≤ j then j - s else W - s + j) := by
  rw [Nat.testBit_mod_two_pow, Nat.testBit_or, Nat.testBit_shiftLeft, Nat.testBit_shiftRight]
  split
  · next hle =>
    have hzero : V.testBit (W - s + j) = false :=
      Nat.testBit_lt_two_pow (hV.trans_le (Nat.pow_le_pow_right two_pos (by omega)))
    simp [hj, hle, hzero]
  · next hlt => simp [hj, hlt]

/-- A buffer whose bits are those of `X` moved up by `s` holds the rotated integer of `X`. -/
theorem vBE_eq_rotated {X R : Buffer} {s : Nat} (hlen : R.length = X.length)
    (hs : s ≤ 8 * X.length) (h : ∀ p, cyclicBit R p = cyclicBit X (p - s)) :
    vBE R =
      ((vBE X <<< s) ||| (vBE X >>> (8 * X.length - s))) % 2 ^ (8 * X.length) := by
  refine Nat.eq_of_testBit_eq fun j => ?_
  by_cases hj : j < 8 * X.length
  · rw [testBit_rotated (vBE_lt_two_pow X) hs hj, testBit_vBE (hlen ▸ hj), h]
    split
    · rw [testBit_vBE (by omega)]
      congr 1
      omega
    · rw [testBit_vBE (by omega), ← cyclicBit_add_width_mul X _ 1]
      congr 1
      omega
  · rw [testBit_vBE_of_le (hlen ▸ not_lt.1 hj), Nat.testBit_mod_two_pow]
    simp [hj]

theorem vBE_rolBuffer (X : Buffer) (i : Nat) (hL : 1 ≤ X.length) :
    vBE (rolBuffer X i) =
      ((vBE X <<< (i % (8 * X.length))) |||
        (vBE X >>> (8 * X.length - i % (8 * X.length)))) % 2 ^ (8 * X.length) := by
  refine vBE_eq_rotated (rolBuffer_length X i) (Nat.mod_lt i (by omega)).le fun p => ?_
  rw [cyclicBit_rolBuffer]
  refine cyclicBit_congr X (Int.ModEq.sub_left p ?_)
  push_cast
  exact (Int.mod_modEq _ _).symm

/-- ROR by `s` of `W` bits is the rotation to the left by `W - s`. -/
theorem vBE_rorBuffer (X : Buffer) (i : Nat) (hL : 1 ≤ X.length) :
    vBE (rorBuffer X i) =
      ((vBE X >>> (i % (8 * X.length))) |||
        (vBE X <<< (8 * X.length - i % (8 * X.length)))) % 2 ^ (8 * X.length) := by
  have hs : i % (8 * X.length) ≤ 8 * X.length := (Nat.mod_lt i (by omega)).le
  have hleft := vBE_eq_rotated (X := X) (s := 8 * X.length - i % (8 * X.length))
    (rorBuffer_length X i) (Nat.sub_le _ _) fun p => ?_
  · rw [hleft, Nat.sub_sub_self hs, Nat.lor_comm]
  · rw [cyclicBit_rorBuffer, ← cyclicBit_add_width_mul X _ (-1)]
    refine cyclicBit_congr X ?_
    push_cast [hs]
    rw [show p + i + 8 * X.length * -1 = p - (8 * X.length - i) by ring]
    exact (((Int.mod_modEq _ _).symm).sub_left _).sub_left p

/-! ### Rotations invert each other and compose (R56 (a) to (c)) -/

theorem rorBuffer_rolBuffer (X : Buffer) (i : Nat) : rorBuffer (rolBuffer X i) i = X := by
  refine eq_of_cyclicBit (by rw [rorBuffer_length, rolBuffer_length]) fun p => ?_
  rw [cyclicBit_rorBuffer, cyclicBit_rolBuffer, add_sub_cancel_right]

theorem rolBuffer_rorBuffer (X : Buffer) (i : Nat) : rolBuffer (rorBuffer X i) i = X := by
  refine eq_of_cyclicBit (by rw [rolBuffer_length, rorBuffer_length]) fun p => ?_
  rw [cyclicBit_rolBuffer, cyclicBit_rorBuffer, sub_add_cancel]

theorem rolBuffer_eq_rolBuffer_rolBuffer (X : Buffer) {m n i : Nat}
    (h : (i : Int) ≡ m + n [ZMOD 8 * X.length]) :
    rolBuffer X i = rolBuffer (rolBuffer X m) n := by
  refine eq_of_cyclicBit (by simp only [rolBuffer_length]) fun p => ?_
  rw [cyclicBit_rolBuffer, cyclicBit_rolBuffer, cyclicBit_rolBuffer, sub_sub, add_comm (n : Int)]
  exact cyclicBit_congr X (h.sub_left p)

theorem rorBuffer_eq_rorBuffer_rorBuffer (X : Buffer) {m n i : Nat}
    (h : (i : Int) ≡ m + n [ZMOD 8 * X.length]) :
    rorBuffer X i = rorBuffer (rorBuffer X m) n := by
  refine eq_of_cyclicBit (by simp only [rorBuffer_length]) fun p => ?_
  rw [cyclicBit_rorBuffer, cyclicBit_rorBuffer, cyclicBit_rorBuffer, add_assoc, add_comm (n : Int)]
  exact cyclicBit_congr X (h.add_left p)

/-- The whole-byte step may follow the sub-byte step. -/
theorem rolBuffer_eq_rotb_rolBuffer (X : Buffer) (i : Nat) :
    rolBuffer X i = rotb (rolBuffer X (i % 8)) (i / 8 : Nat) := by
  refine eq_of_cyclicBit (by simp only [rotb_length, rolBuffer_length]) fun p => ?_
  rw [cyclicBit_rotb, cyclicBit_rolBuffer, cyclicBit_rolBuffer]
  congr 1
  omega

/-! ### The set bits of a rotated buffer (R56 (d)) -/

theorem popCountOf_reverse (X : Buffer) : popCountOf X.reverse = popCountOf X := by
  rw [popCountOf, popCountOf, List.map_reverse, List.sum_reverse]

theorem popCountOf_eq_count_cyclicBit (X : Buffer) :
    popCountOf X = Nat.count (fun j => cyclicBit X j) (8 * X.length) := by
  rw [← popCountOf_reverse, popCountOf_eq_card_vLE_testBit, ← vBE_eq_vLE_reverse,
    List.length_reverse, Nat.count_eq_card_filter_range]
  congr 1
  exact Finset.filter_congr fun j hj => by rw [testBit_vBE (Finset.mem_range.1 hj)]

/-- `8L` cyclic bits in a row have the same number of set bits, wherever they begin. -/
theorem count_cyclicBit_add (X : Buffer) (i : Nat) :
    Nat.count (fun j => cyclicBit X (j + i)) (8 * X.length) =
      Nat.count (fun j => cyclicBit X j) (8 * X.length) := by
  have hperiod : ∀ k : Nat, cyclicBit X (8 * X.length + k) = cyclicBit X k := fun k => by
    rw [← cyclicBit_add_width_mul X k 1, mul_one, add_comm]
  have hfront := Nat.count_add (fun j : Nat => cyclicBit X j = true) (8 * X.length) i
  have hback := Nat.count_add' (fun j : Nat => cyclicBit X j = true) (8 * X.length) i
  push_cast at hfront hback
  simp only [hperiod] at hfront
  omega

theorem popCountOf_rorBuffer (X : Buffer) (i : Nat) :
    popCountOf (rorBuffer X i) = popCountOf X := by
  simp only [popCountOf_eq_count_cyclicBit, rorBuffer_length, cyclicBit_rorBuffer]
  exact count_cyclicBit_add X i

theorem popCountOf_rolBuffer (X : Buffer) (i : Nat) :
    popCountOf (rolBuffer X i) = popCountOf X := by
  rw [← popCountOf_rorBuffer (rolBuffer X i) i, rorBuffer_rolBuffer]

end Sys2Proof.Machine

open Sys2Proof Sys2Proof.Machine

/-- Settles O32: `rotb_byteAt`, read at an index inside the buffer. -/
theorem byteRotationIsCyclic : Obligations.ByteRotationIsCyclic := by
  refine fun X n => ⟨rotb_length X n, fun k hk => ?_⟩
  obtain ⟨-, hlt⟩ := emod_toNat (k + n) X.length (by omega)
  rw [getElem?_eq_byteAt (hk.trans_eq (rotb_length X n).symm), rotb_byteAt X n hk,
    getElem?_eq_byteAt hlt]

/-- Settles O33: the two cases are those of `rotateReply`, and `rolBuffer_byteAt` says what each byte
is. -/
theorem rolResult : Obligations.RolResult := by
  refine ⟨decode_encode .rol, fun s r rest hreq =>
    ⟨exec_rotate_of_neg replyOf_rol hreq, fun hnonneg =>
      ⟨_, exec_rotate_of_nonneg replyOf_rol hreq hnonneg, rolBuffer_length _ _, fun k hk => ?_⟩⟩⟩
  rw [getElem?_eq_byteAt (hk.trans_eq (rolBuffer_length _ _).symm), rolBuffer_byteAt _ _ hk]
  rfl

/-- Settles O34: the two cases are those of `rotateReply`, and `rorBuffer_byteAt` says what each byte
is. -/
theorem rorResult : Obligations.RorResult := by
  refine ⟨decode_encode .ror, fun s r rest hreq =>
    ⟨exec_rotate_of_neg replyOf_ror hreq, fun hnonneg =>
      ⟨_, exec_rotate_of_nonneg replyOf_ror hreq hnonneg, rorBuffer_length _ _, fun k hk => ?_⟩⟩⟩
  have hq : (((amount s.config r).toNat / 8 : Nat) : Int) = amount s.config r / 8 := by omega
  rw [getElem?_eq_byteAt (hk.trans_eq (rorBuffer_length _ _).symm), rorBuffer_byteAt _ _ hk, hq]
  rfl

/-- Settles O35: `vBE_rolBuffer` and `vBE_rorBuffer` give the value, and length and value determine
the buffer. -/
theorem rotatorNetEffect : Obligations.RotatorNetEffect := by
  intro c r R L W sft V hL
  refine ⟨fun hR => ?_, fun hR => ?_⟩
  · obtain ⟨n, hn, rfl⟩ := exists_natCast_amount_of_rotate replyOf_rol hR
    have hv := vBE_rolBuffer r.a n hL
    have hsft : sft = n % W := by simp only [sft, hn, Int.toNat_natCast]
    rw [hsft]
    exact ⟨eq_beBytes (rolBuffer_length _ _) hv, hv⟩
  · obtain ⟨n, hn, rfl⟩ := exists_natCast_amount_of_rotate replyOf_ror hR
    have hv := vBE_rorBuffer r.a n hL
    have hsft : sft = n % W := by simp only [sft, hn, Int.toNat_natCast]
    rw [hsft]
    exact ⟨eq_beBytes (rorBuffer_length _ _) hv, hv⟩

/-- Settles O36: a rotation moves the cyclic bits by its amount, so amounts add up modulo the
width. -/
theorem rotationsInvertAndCompose : Obligations.RotationsInvertAndCompose :=
  fun _ _ _ _ _ _ _ h2 h3 =>
    ⟨reply_rotate_undo replyOf_rol replyOf_ror rorBuffer_rolBuffer h2,
      reply_rotate_undo replyOf_ror replyOf_rol rolBuffer_rorBuffer h2,
      reply_rotate_compose replyOf_rol rolBuffer_eq_rolBuffer_rolBuffer h2 h3,
      reply_rotate_compose replyOf_ror rorBuffer_eq_rorBuffer_rorBuffer h2 h3⟩

/-- Settles O37: the two steps of ROL move the cyclic bits by amounts that add up, and the set bits
are counted over one full turn. -/
theorem rotationKeepsBitCountAndLength : Obligations.RotationKeepsBitCountAndLength := by
  refine fun c r R => ⟨fun hR => ?_, fun hR => ?_⟩
  · obtain ⟨n, hn, rfl⟩ := exists_natCast_amount_of_rotate replyOf_rol hR
    rw [hn, Int.toNat_natCast]
    exact rolBuffer_eq_rotb_rolBuffer r.a n
  · have hkeeps : R.length = r.a.length ∧ popCountOf R = popCountOf r.a := by
      rcases hR with hR | hR
      · obtain ⟨n, -, rfl⟩ := exists_natCast_amount_of_rotate replyOf_rol hR
        exact ⟨rolBuffer_length r.a n, popCountOf_rolBuffer r.a n⟩
      · obtain ⟨n, -, rfl⟩ := exists_natCast_amount_of_rotate replyOf_ror hR
        exact ⟨rorBuffer_length r.a n, popCountOf_rorBuffer r.a n⟩
    obtain ⟨hlen, hpop⟩ := hkeeps
    exact ⟨hlen, popCountOf r.a, reply_popcnt c r, hpop ▸ reply_popcnt c { r with a := R }⟩

end

section
/-! Proofs about the bit operations of spec/43_bit.md (R57 to R60). TESTBIT reads one bit of the
little-endian value, BIT gives the buffer whose value is `2^i`, and POPCNT counts the bits of the
value. The corner cases of R58 are then facts about the bits of `2^i`. -/

namespace Sys2Proof.Machine

variable {c : Config} {r : Request}

/-! ### TESTBIT (R57) -/

/-- The test of R57, `(x >> j) & 0x01 = 0x01`, asks for bit `j` of the byte. -/
theorem shrByte_and_one_beq_one (x : Byte) (j : Nat) :
    ((shrByte x j &&& 0x01) == 0x01) = x.getLsbD j := by
  rw [shrByte, Bool.eq_iff_iff, beq_iff_eq]
  constructor
  · intro h
    simpa using congrArg (BitVec.getLsbD · 0) h
  · intro h
    refine BitVec.eq_of_getLsbD_eq fun k hk => ?_
    cases k <;> simp [h]

theorem testBitOf_of_outside {X : Buffer} {i : Int} (h : i < 0 ∨ (8 * X.length : Int) ≤ i) :
    testBitOf X i = false :=
  if_pos h

/-- Inside the index space TESTBIT gives a bit of the value (R24, R57). -/
theorem testBitOf_of_inside {X : Buffer} {i : Int} (h : 0 ≤ i) (hlt : i < (8 * X.length : Int)) :
    testBitOf X i = (vLE X).testBit i.toNat := by
  rw [testBitOf, if_neg (by omega), shrByte_and_one_beq_one, vLE_testBit]

/-- TESTBIT for every index: the value has no bits above those of its bytes. -/
theorem testBitOf_eq (X : Buffer) (i : Int) :
    testBitOf X i = (decide (0 ≤ i) && (vLE X).testBit i.toNat) := by
  by_cases hneg : i < 0
  · rw [testBitOf_of_outside (.inl hneg), decide_eq_false (not_le.2 hneg), Bool.false_and]
  · rw [decide_eq_true (not_lt.1 hneg), Bool.true_and]
    by_cases hlt : i < (8 * X.length : Int)
    · exact testBitOf_of_inside (not_lt.1 hneg) hlt
    · rw [testBitOf_of_outside (.inr (not_lt.1 hlt)), vLE_testBit, byteAt_of_le (by omega)]
      exact BitVec.getLsbD_zero.symm

theorem reply_testbit (c : Config) (r : Request) :
    reply .testbit c r = some (.ok (.bool (testBitOf r.a (amount c r)))) :=
  reply_eq .testbit c r

/-! ### BIT (R58) -/

theorem bitReply_of_neg (h : amount c r < 0) : bitReply c r = .error (.negIndex (amount c r)) :=
  if_pos h

theorem bitReply_of_exceeds (h : 0 ≤ amount c r)
    (hbig : exceeds c ((amount c r).toNat / 8 + 1) = true) :
    bitReply c r = .error (.capacity ((amount c r).toNat / 8 + 1)) :=
  (if_neg h.not_gt).trans (if_pos hbig)

theorem bitReply_of_fits (h : 0 ≤ amount c r)
    (hfit : ¬ exceeds c ((amount c r).toNat / 8 + 1) = true) :
    bitReply c r = .ok (.buf (bitBuffer (amount c r).toNat)) :=
  (if_neg h.not_gt).trans (if_neg hfit)

/-- A BIT that answers has an index of 0 or more and gives its one buffer. -/
theorem eq_bitBuffer_of_reply {R : Buffer} (h : reply .bit c r = some (.ok (.buf R))) :
    0 ≤ amount c r ∧ R = bitBuffer (amount c r).toNat := by
  rw [reply_eq, Option.some_inj, toResponse_eq_ok, replyOf] at h
  rcases lt_or_ge (amount c r) 0 with hneg | hnn
  · rw [bitReply_of_neg hneg] at h
    cases h
  · by_cases hbig : exceeds c ((amount c r).toNat / 8 + 1) = true
    · rw [bitReply_of_exceeds hnn hbig] at h
      cases h
    · rw [bitReply_of_fits hnn hbig] at h
      cases h
      exact ⟨hnn, rfl⟩

theorem getLsbD_shlByte_one {n : Nat} (hn : n < 8) (j : Nat) :
    (shlByte 1 n).getLsbD j = decide (n = j) := by
  have htwo : shlByte 1 n = BitVec.twoPow 8 n := (BitVec.twoPow_eq 8 n).symm
  rw [htwo, BitVec.getLsbD_twoPow, decide_eq_true hn, Bool.true_and]

/-- BIT for the index `i` gives the value `2^i` (R58, corner cases). -/
theorem vLE_bitBuffer (i : Nat) : vLE (bitBuffer i) = 2 ^ i := by
  refine Nat.eq_of_testBit_eq fun j => ?_
  rw [vLE_testBit, bitBuffer_byteAt, Nat.testBit_two_pow]
  split
  · rw [getLsbD_shlByte_one (Nat.mod_lt i (by decide)), decide_eq_decide]
    omega
  · next hbyte =>
    have hne : i ≠ j := fun h => hbyte (by rw [h])
    rw [decide_eq_false hne]
    exact BitVec.getLsbD_zero

/-! ### POPCNT (R59, R60) -/

/-- A buffer whose value is a power of two has one set bit. -/
theorem popCountOf_of_vLE_eq_two_pow {X : Buffer} {i : Nat} (h : vLE X = 2 ^ i) :
    popCountOf X = 1 := by
  have hi : i < 8 * X.length :=
    (Nat.pow_lt_pow_iff_right one_lt_two).1 (by rw [← h, ← pow_256_eq_two_pow]; exact vLE_lt X)
  have hbit : (Finset.range (8 * X.length)).filter (fun j => (vLE X).testBit j) = {i} := by
    ext j
    simp only [h, Nat.testBit_two_pow, Finset.mem_filter, Finset.mem_range, decide_eq_true_eq,
      Finset.mem_singleton]
    omega
  rw [popCountOf_eq_card_vLE_testBit, hbit, Finset.card_singleton]

theorem pop8_eq_sum (x : Byte) : pop8 x = ∑ j ∈ Finset.range 8, (x.getLsbD j).toNat := by
  simp only [pop8, bitOf, Finset.sum_range_succ, Finset.sum_range_zero, Nat.zero_add]

theorem popCountOf_eq_double_sum (X : Buffer) :
    popCountOf X = ∑ k ∈ Finset.range X.length, ∑ j ∈ Finset.range 8,
      ((byteAt X k).getLsbD j).toNat := by
  rw [popCountOf_eq_sum]
  exact Finset.sum_congr rfl fun k _ => pop8_eq_sum _

end Sys2Proof.Machine

open Sys2Proof Sys2Proof.Machine

/-- Settles O38: inside the index space the bit of the value is the bit of the byte. -/
theorem testbitResult : Obligations.TestbitResult := by
  refine ⟨decode_encode .testbit, fun s r rest hreq => ?_⟩
  refine ⟨testBitOf r.a (amount s.config r), exec_cons hreq .testbit, testBitOf_of_outside,
    fun hnn hlt => ?_⟩
  have hvalue := testBitOf_of_inside hnn hlt
  exact ⟨hvalue.trans (vLE_testBit r.a _), hvalue⟩

/-- Settles O39: the three cases are those of `bitReply`, and `bitBuffer_byteAt` says what each byte
is. -/
theorem bitResult : Obligations.BitResult := by
  refine ⟨decode_encode .bit, fun s r rest hreq => ⟨fun hneg => ?_, fun hnn hbig => ?_,
    fun hnn hfit => ?_⟩⟩
  · rw [exec_cons hreq, replyOf, bitReply_of_neg hneg]
    rfl
  · rw [exec_cons hreq, replyOf, bitReply_of_exceeds hnn ((exceeds_iff _ _).2 hbig)]
    rfl
  · have hlen := bitBuffer_length (amount s.config r).toNat
    refine ⟨bitBuffer (amount s.config r).toNat, ?_, hlen, fun k hk => ?_⟩
    · rw [exec_cons hreq, replyOf, bitReply_of_fits hnn fun h => hfit ((exceeds_iff _ _).1 h)]
      rfl
    · rw [getElem?_eq_byteAt (hk.trans_eq hlen.symm), bitBuffer_byteAt]
      rfl

/-- Settles O40: the answer is the buffer of value `2^i`, and `2^i` has bit `i` and no other. -/
theorem bitConstructorLaws : Obligations.BitConstructorLaws := by
  intro c r r' R hR
  obtain ⟨hnn, rfl⟩ := eq_bitBuffer_of_reply hR
  have hv := vLE_bitBuffer (amount c r).toNat
  refine ⟨hv, ?_, fun ha => ?_⟩
  · rw [reply_popcnt, popCountOf_of_vLE_eq_two_pow hv]
  · have hbit : testBitOf r'.a (amount c r') = decide (amount c r' = amount c r) := by
      rw [testBitOf_eq, ha, hv, Nat.testBit_two_pow, ← Bool.decide_and, decide_eq_decide]
      omega
    rw [reply_testbit, hbit]

/-- Settles O41: POPCNT raises nothing, and each byte is the sum of its eight bits. -/
theorem popcntResult : Obligations.PopcntResult := by
  refine ⟨decode_encode .popcnt, fun s r rest hreq => ?_⟩
  exact ⟨popCountOf r.a, exec_cons hreq .popcnt, popCountOf_le r.a, popCountOf_eq_double_sum r.a⟩

end

section
/-! Proofs about spec/60_exceptions.md: the status and kind codes of a response (R62), the one cause
behind every fault (R63 to R68), and units side by side (R74). -/

namespace Sys2Proof

/-! ### The command byte of a decoded operation (R33, R35) -/

theorem eq_opcode_of_decodeOpcode {op : BitVec 4} {i : Instr} (h : decodeOpcode op = .ok i) :
    op = opcode i := by
  refine BitVec.eq_of_toNat_eq ?_
  unfold decodeOpcode at h
  split at h <;> cases h <;> assumption

/-- R35: no two bytes decode to one operation. -/
theorem eq_encode_of_decode {cmd : Byte} {i : Instr} (h : decode cmd = .ok i) :
    cmd = encode i := by
  obtain ⟨hrsv, -⟩ := (exists_decode_iff cmd).1 ⟨i, h⟩
  have hzero : rsvField cmd = 0 := BitVec.eq_of_toNat_eq ((rsvField_toNat cmd).trans hrsv)
  have hop : opField cmd = opcode i := eq_opcode_of_decodeOpcode (by simpa [decode, hzero] using h)
  refine BitVec.eq_of_toNat_eq ?_
  rw [encode_toNat, ← hop, opField_toNat]
  omega

/-- The command bytes of the operations that R64 to R67 name. -/
theorem encode_mem_logic_iff (i : Instr) :
    encode i ∈ [(0x00 : Byte), 0x01, 0x02] ↔ i ∈ [Instr.and, .or, .xor] := by
  cases i <;> decide

theorem encode_mem_rotate_iff (i : Instr) :
    encode i ∈ [(0x06 : Byte), 0x07] ↔ i ∈ [Instr.rol, .ror] := by
  cases i <;> decide

theorem encode_eq_shl_iff (i : Instr) : encode i = 0x05 ↔ i = .shl := by
  cases i <;> decide

theorem encode_eq_bit_iff (i : Instr) : encode i = 0x09 ↔ i = .bit := by
  cases i <;> decide

end Sys2Proof

namespace Sys2Proof.Machine

/-! ### The causes of a fault (R64 to R68) -/

section
variable {c : Config} {r : Request} {i : Instr} {f : UnitFault}

theorem bitwise_eq_error_iff {g : Byte → Byte → Byte} :
    bitwise g c r = .error f ↔
      (r.lenA ≠ r.lenB ∧ c.logicLenPolicy = .fault) ∧ f = .lengthMismatch r.lenA r.lenB := by
  by_cases hbad : r.lenA ≠ r.lenB ∧ c.logicLenPolicy = .fault
  · obtain ⟨hne, hpol⟩ := hbad
    simp [bitwise_eq_mismatch g hne hpol, hne, hpol, eq_comm]
  · have hok : r.lenA = r.lenB ∨ c.logicLenPolicy = .zipTruncate := by
      cases hpol : c.logicLenPolicy <;> simp_all
    simp [bitwise_eq_zipWith g hok, hbad]

/-- What a check before a result raises. -/
theorem ite_error_eq_error_iff {bad : Prop} [Decidable bad] {e : UnitFault} {m : Reply} :
    (if bad then .error e else m) = .error f ↔ bad ∧ f = e ∨ ¬ bad ∧ m = .error f := by
  split <;> simp [*, eq_comm]

theorem rotateReply_eq_error_iff {g : Buffer → Nat → Buffer} :
    rotateReply g c r = .error f ↔ amount c r < 0 ∧ f = .negAmount (amount c r) := by
  simp [rotateReply, ite_error_eq_error_iff]

theorem shlReply_eq_error_iff :
    shlReply c r = .error f ↔
      (0 < amount c r ∧ exceeds c (r.lenA + ceilDiv8 (amount c r).toNat) = true) ∧
        f = .capacity (r.lenA + ceilDiv8 (amount c r).toNat) := by
  simp [shlReply, ite_error_eq_error_iff]

theorem bitReply_eq_error_iff :
    bitReply c r = .error f ↔
      amount c r < 0 ∧ f = .negIndex (amount c r) ∨
      0 ≤ amount c r ∧ exceeds c ((amount c r).toNat / 8 + 1) = true ∧
        f = .capacity ((amount c r).toNat / 8 + 1) := by
  simp [bitReply, ite_error_eq_error_iff]

/-- The faults of the operations, each with its cause (R64 to R67); BIT asks for the length it needs
only where its index is not negative (R68). -/
inductive Raises (c : Config) (r : Request) : Instr → UnitFault → Prop where
  | lengthMismatch {i : Instr} (hi : i ∈ [Instr.and, .or, .xor]) (hne : r.lenA ≠ r.lenB)
      (hpol : c.logicLenPolicy = .fault) : Raises c r i (.lengthMismatch r.lenA r.lenB)
  | negAmount {i : Instr} (hi : i ∈ [Instr.rol, .ror]) (hneg : amount c r < 0) :
      Raises c r i (.negAmount (amount c r))
  | negIndex (hneg : amount c r < 0) : Raises c r .bit (.negIndex (amount c r))
  | shlCapacity (hpos : 0 < amount c r)
      (hbig : exceeds c (r.lenA + ceilDiv8 (amount c r).toNat) = true) :
      Raises c r .shl (.capacity (r.lenA + ceilDiv8 (amount c r).toNat))
  | bitCapacity (hnn : 0 ≤ amount c r)
      (hbig : exceeds c ((amount c r).toNat / 8 + 1) = true) :
      Raises c r .bit (.capacity ((amount c r).toNat / 8 + 1))

theorem exists_bitwise_of_mem (hi : i ∈ [Instr.and, .or, .xor]) : ∃ g, replyOf i = bitwise g := by
  fin_cases hi
  · exact ⟨_, rfl⟩
  · exact ⟨_, rfl⟩
  · exact ⟨_, rfl⟩

theorem exists_rotateReply_of_mem (hi : i ∈ [Instr.rol, .ror]) :
    ∃ g, replyOf i = rotateReply g := by
  fin_cases hi
  · exact ⟨_, replyOf_rol⟩
  · exact ⟨_, replyOf_ror⟩

theorem replyOf_of_raises (h : Raises c r i f) : replyOf i c r = .error f := by
  cases h with
  | lengthMismatch hi hne hpol =>
    obtain ⟨g, hg⟩ := exists_bitwise_of_mem hi
    rw [hg, bitwise_eq_mismatch g hne hpol]
  | negAmount hi hneg =>
    obtain ⟨g, hg⟩ := exists_rotateReply_of_mem hi
    rw [hg, rotateReply_of_neg hneg]
  | negIndex hneg => exact bitReply_of_neg hneg
  | shlCapacity hpos hbig => exact shlReply_of_exceeds hpos hbig
  | bitCapacity hnn hbig => exact bitReply_of_exceeds hnn hbig

theorem raises_of_bitwise (hi : i ∈ [Instr.and, .or, .xor]) {g : Byte → Byte → Byte}
    (h : bitwise g c r = .error f) : Raises c r i f := by
  obtain ⟨⟨hne, hpol⟩, rfl⟩ := bitwise_eq_error_iff.1 h
  exact .lengthMismatch hi hne hpol

theorem raises_of_rotateReply (hi : i ∈ [Instr.rol, .ror]) {g : Buffer → Nat → Buffer}
    (h : rotateReply g c r = .error f) : Raises c r i f := by
  obtain ⟨hneg, rfl⟩ := rotateReply_eq_error_iff.1 h
  exact .negAmount hi hneg

/-- Everything an operation can raise. -/
theorem raises_of_replyOf (h : replyOf i c r = .error f) : Raises c r i f := by
  cases i with
  | and => exact raises_of_bitwise (by decide) h
  | or => exact raises_of_bitwise (by decide) h
  | xor => exact raises_of_bitwise (by decide) h
  | rol => exact raises_of_rotateReply (by decide) (replyOf_rol ▸ h)
  | ror => exact raises_of_rotateReply (by decide) (replyOf_ror ▸ h)
  | shl =>
    obtain ⟨⟨hpos, hbig⟩, rfl⟩ := shlReply_eq_error_iff.1 h
    exact .shlCapacity hpos hbig
  | bit =>
    obtain ⟨hneg, rfl⟩ | ⟨hnn, hbig, rfl⟩ := bitReply_eq_error_iff.1 h
    · exact .negIndex hneg
    · exact .bitCapacity hnn hbig
  | not => cases h
  | shr => cases h
  | testbit => cases h
  | popcnt => cases h

/-! ### The lengths of R67 as integers -/

/-- R67 for SHL, whose result needs `lenA + ceil(i/8)` bytes. -/
theorem exceeds_shl_length_iff (c : Config) (n : Nat) {i : Int} (hi : 0 ≤ i) :
    exceeds c (n + ceilDiv8 i.toNat) = true ↔
      ∃ m, c.maxBytes = .finite m ∧ (m : Int) < n + (i + 7) / 8 := by
  rw [exceeds_iff]
  refine exists_congr fun m => and_congr_right fun _ => ?_
  unfold ceilDiv8
  omega

/-- R67 for BIT, whose result needs `floor(i/8) + 1` bytes. -/
theorem exceeds_bit_length_iff (c : Config) {i : Int} (hi : 0 ≤ i) :
    exceeds c (i.toNat / 8 + 1) = true ↔
      ∃ m, c.maxBytes = .finite m ∧ (m : Int) < i / 8 + 1 := by
  rw [exceeds_iff]
  refine exists_congr fun m => and_congr_right fun _ => ?_
  omega

/-- R67, for the two operations whose result can be too long. -/
theorem exists_raises_capacity_iff :
    (∃ n, Raises c r i (.capacity n)) ↔
      ∃ m, c.maxBytes = .finite m ∧
        ((i = .shl ∧ 0 < amount c r ∧ (m : Int) < r.lenA + (amount c r + 7) / 8) ∨
         (i = .bit ∧ 0 ≤ amount c r ∧ (m : Int) < amount c r / 8 + 1)) := by
  constructor
  · rintro ⟨n, h⟩
    cases h with
    | shlCapacity hpos hbig =>
      obtain ⟨m, hm, hlt⟩ := (exceeds_shl_length_iff c _ hpos.le).1 hbig
      exact ⟨m, hm, .inl ⟨rfl, hpos, hlt⟩⟩
    | bitCapacity hnn hbig =>
      obtain ⟨m, hm, hlt⟩ := (exceeds_bit_length_iff c hnn).1 hbig
      exact ⟨m, hm, .inr ⟨rfl, hnn, hlt⟩⟩
  · rintro ⟨m, hm, ⟨rfl, hpos, hlt⟩ | ⟨rfl, hnn, hlt⟩⟩
    · exact ⟨_, .shlCapacity hpos ((exceeds_shl_length_iff c _ hpos.le).2 ⟨m, hm, hlt⟩)⟩
    · exact ⟨_, .bitCapacity hnn ((exceeds_bit_length_iff c hnn).2 ⟨m, hm, hlt⟩)⟩

/-! ### The status of a request (R63 to R68) -/

theorem status_of_raises (hd : decode r.cmd = .ok i) (h : Raises c r i f) :
    (stepResponse c r).status = f.status.code := by
  rw [stepResponse_of_decode_ok hd, replyOf_of_raises h]
  rfl

theorem status_of_raises_nothing (hd : decode r.cmd = .ok i) (h : ∀ f, ¬ Raises c r i f) :
    (stepResponse c r).status = 0 := by
  rw [stepResponse_of_decode_ok hd]
  cases hm : replyOf i c r with
  | ok res => rfl
  | error f => exact absurd (raises_of_replyOf hm) (h f)

end

/-! ### The codes of a response (R16, R17, R62) -/

theorem Status.code_toNat_le (st : Status) : st.code.toNat ≤ 5 := by
  cases st <;> decide

theorem Status.ofCode_code (st : Status) : Status.ofCode st.code = some st := by
  cases st <;> rfl

theorem Status.code_eq_zero_iff (st : Status) : st.code = 0 ↔ st = .ok := by
  cases st <;> decide

/-- R62 reserves the codes from 6 on and no other. -/
theorem Status.exists_code_eq {code : BitVec 4} (h : code.toNat < 6) :
    ∃ st : Status, st.code = code := by
  have hall : ∀ code : BitVec 4, code.toNat < 6 → code ∈
      [Status.ok, .illegalOp, .lengthMismatch, .negAmount, .negIndex, .capacity].map
        Status.code := by decide
  obtain ⟨st, -, hst⟩ := List.mem_map.1 (hall code h)
  exact ⟨st, hst⟩

theorem Status.ofCode_reserved {code : BitVec 4} (h : 6 ≤ code.toNat) :
    Status.ofCode code = none := by
  revert code
  decide

theorem ResultKind.ofCode_code (k : ResultKind) : ResultKind.ofCode k.code = k := by
  cases k <;> rfl

theorem ResultKind.code_ofCode (code : BitVec 2) : (ResultKind.ofCode code).code = code := by
  revert code
  decide

theorem ResultKind.code_eq_three_iff (k : ResultKind) : k.code = 3 ↔ k = .none := by
  cases k <;> decide

/-- A reader accepts the codes of a status and a kind exactly where R17 allows the two together. -/
theorem readPorts_code (st : Status) (k : ResultKind) :
    readPorts st.code k.code =
      if st = .ok ↔ k ≠ .none then .ok (st, k) else .error .statusKindMismatch := by
  simp only [readPorts, Status.ofCode_code, ResultKind.ofCode_code]

theorem readPorts_reserved {status : BitVec 4} (h : 6 ≤ status.toNat) (kind : BitVec 2) :
    readPorts status kind = .error .reservedStatus := by
  simp only [readPorts, Status.ofCode_reserved h]

/-- R17 in codes and in names. -/
theorem codes_agree_iff (st : Status) (k : ResultKind) :
    (st.code = 0 ↔ k.code ≠ 3) ↔ (st = .ok ↔ k ≠ .none) := by
  rw [Status.code_eq_zero_iff, Ne, ResultKind.code_eq_three_iff]

/-- R17: a response has the status OK and the kind of its result, or a fault's status and no kind. -/
theorem Response.exists_status_kind (p : Response) :
    ∃ (st : Status) (k : ResultKind), st.code = p.status ∧ k.code = p.kind ∧
      (st = .ok ↔ k ≠ .none) := by
  cases p with
  | ok res => exact ⟨.ok, res.kind, rfl, rfl, by cases res <;> simp [Result.kind]⟩
  | fault f => exact ⟨f.status, .none, rfl, rfl, by cases f <;> simp [UnitFault.status]⟩

/-! ### Units side by side (R74) -/

section
variable {s t : State} {us vs : List State} {j k : Nat}

theorem stepUnit_of_next (hk : us[k]? = some s) (h : step s = .next t) :
    stepUnit k us = .next (us.set k t) := by
  simp only [stepUnit, hk, h]

theorem stepUnit_of_refused (hk : us[k]? = some s) {why : Refusal} (h : step s = .refused why) :
    stepUnit k us = .refused why := by
  simp only [stepUnit, hk, h]

theorem stepUnits_pair_eq_next_iff :
    stepUnits [j, k] us = .next vs ↔
      ∃ ws, stepUnit j us = .next ws ∧ stepUnit k ws = .next vs := by
  cases hj : stepUnit j us with
  | next ws => cases hk : stepUnit k ws <;> simp [stepUnits, hj, hk]
  | fault why => simp [stepUnits, hj]
  | refused why => simp [stepUnits, hj]

/-- The steps of two different units, in the other order. -/
theorem stepUnits_pair_swap (hjk : j ≠ k) (h : stepUnits [j, k] us = .next vs) :
    stepUnits [k, j] us = .next vs := by
  obtain ⟨ws, hj, hk⟩ := stepUnits_pair_eq_next_iff.1 h
  obtain ⟨s, s', hs, hstepj, rfl⟩ := stepUnit_cases hj
  obtain ⟨t, t', ht, hstepk, rfl⟩ := stepUnit_cases hk
  rw [List.getElem?_set_ne hjk] at ht
  refine stepUnits_pair_eq_next_iff.2 ⟨us.set k t', stepUnit_of_next ht hstepk, ?_⟩
  rw [List.set_comm s' t' hjk]
  exact stepUnit_of_next ((List.getElem?_set_ne hjk.symm).trans hs) hstepj

end

end Sys2Proof.Machine

open Sys2Proof Sys2Proof.Machine

/-- Settles O15: an operation raises exactly the faults of `Raises`, so each premise names the fault
of the response, and without one there is none. -/
theorem statusTellsTheFault : Obligations.StatusTellsTheFault := by
  intro s r rest hreq hp illegal mismatch negAmount negIndex capacity
  have hillegal : illegal ↔ ¬ ∃ i, decode r.cmd = .ok i := by
    rw [exists_decode_iff]
    omega
  refine ⟨_, step_cons hreq hp, ?_⟩
  simp only [readStatus_after, Except.ok.injEq]
  by_cases hlegal : ∃ i, decode r.cmd = .ok i
  · obtain ⟨i, hd⟩ := hlegal
    simp only [mismatch, negAmount, negIndex, capacity, eq_encode_of_decode hd,
      encode_mem_logic_iff, encode_mem_rotate_iff, encode_eq_shl_iff, encode_eq_bit_iff,
      ← amount_of_presentable hp]
    refine ⟨fun h => absurd ⟨i, hd⟩ (hillegal.1 h), ?_, ?_, ?_, ?_, ?_⟩
    · rintro - ⟨hi, hne, hpol⟩
      exact status_of_raises hd (.lengthMismatch hi hne hpol)
    · rintro - ⟨hi, hneg⟩
      exact status_of_raises hd (.negAmount hi hneg)
    · rintro - ⟨rfl, hneg⟩
      exact status_of_raises hd (.negIndex hneg)
    · intro _ _ _ _ hcapacity
      obtain ⟨n, hn⟩ := exists_raises_capacity_iff.2 hcapacity
      exact status_of_raises hd hn
    · intro _ hmismatch hamount hindex hcapacity
      refine status_of_raises_nothing hd fun f hf => ?_
      cases hf with
      | lengthMismatch hi hne hpol => exact hmismatch ⟨hi, hne, hpol⟩
      | negAmount hi hneg => exact hamount ⟨hi, hneg⟩
      | negIndex hneg => exact hindex ⟨rfl, hneg⟩
      | shlCapacity hpos hbig =>
        exact hcapacity (exists_raises_capacity_iff.1 ⟨_, .shlCapacity hpos hbig⟩)
      | bitCapacity hnn hbig =>
        exact hcapacity (exists_raises_capacity_iff.1 ⟨_, .bitCapacity hnn hbig⟩)
  · have hstatus : (stepResponse s.config r).status = 0x1 := by
      rw [stepResponse_of_no_instruction hlegal]
      rfl
    simp [hillegal.2 hlegal, hstatus]

/-- Settles O43: a unit's step reads and writes its own place only. -/
theorem unitsAreIndependent : Obligations.UnitsAreIndependent := by
  refine ⟨fun k us s hk => ⟨fun t h => stepUnit_of_next hk h, fun why h => stepUnit_of_refused hk h⟩,
    fun k us vs h => ?_,
    fun j k us vs hjk => ⟨stepUnits_pair_swap hjk, stepUnits_pair_swap hjk.symm⟩⟩
  obtain ⟨s, t, hk, hstep, rfl⟩ := stepUnit_cases h
  obtain ⟨hlt, -⟩ := List.getElem?_eq_some_iff.1 hk
  exact ⟨List.length_set, fun j hj => List.getElem?_set_ne hj.symm,
    s, t, hk, hstep, List.getElem?_set_self hlt⟩

/-- Settles O16: every pair of codes below the reserved ones is that of a status and a kind, and a
response's pair meets R17. -/
theorem responseCodesAreTheTables : Obligations.ResponseCodesAreTheTables := by
  refine ⟨fun p => ?_, fun status kind => ⟨fun h => readPorts_reserved h kind, fun hlt hne => ?_⟩⟩
  · obtain ⟨st, k, hst, hk, hagree⟩ := p.exists_status_kind
    rw [← hst, ← hk]
    exact ⟨st.code_toNat_le, (codes_agree_iff st k).2 hagree, st, k,
      (readPorts_code st k).trans (if_pos hagree), rfl, rfl⟩
  · obtain ⟨st, rfl⟩ := Status.exists_code_eq hlt
    rw [← ResultKind.code_ofCode kind] at hne ⊢
    rw [readPorts_code, if_neg (mt (codes_agree_iff _ _).2 hne)]

end

section
/-! Proofs about spec/70_reset_and_hazards.md: one response for each request (R78). -/

open Sys2Proof Sys2Proof.Machine

/-- Settles O9: a step that answers delivers `stepResponse` for the head request, illegal commands
included, and that is the response the request gets alone. -/
theorem stepAnswersOneRequest : Obligations.StepAnswersOneRequest := by
  intro s t hstep
  obtain ⟨r, rest, hreq, hp, rfl⟩ := step_cases hstep
  exact ⟨r, _, hreq, hp, rfl, rfl, aloneResponse_eq hp⟩

end

section
/-! Proofs about spec/30_encoding.md (R33, R35, R39) and spec/20_memory.md (R29, R32): a command byte
is the encoding of what it decodes to, and a step runs what the command byte decodes to. -/

namespace Sys2Proof

/-- R39: a word is a command exactly when it is one byte and the decoder accepts that byte. -/
theorem decodeTableWord_eq_some_iff {n w : Nat} {i : Instr} :
    decodeTableWord n w = some i ↔ (n = 8 ∧ w < 256) ∧ decode (BitVec.ofNat 8 w) = .ok i := by
  unfold decodeTableWord
  by_cases hbyte : n = 8 ∧ w < 256
  · cases hd : decode (BitVec.ofNat 8 w) <;> simp [hbyte]
  · simp [hbyte]

end Sys2Proof

namespace Sys2Proof.Machine

/-- What `withFetchWord` puts at the head of the queue. -/
theorem withFetchWord_head {s : State} (hc : s.config.wf = true) (n w : Nat) :
    ∃ r rest, (s.withFetchWord n w).requests = r :: rest ∧
      Presentable (s.withFetchWord n w).config r ∧ r.cmd = BitVec.ofNat 8 w := by
  obtain ⟨r, rest, hreq, hwf, hcmd⟩ := withCommand_head s (BitVec.ofNat 8 w)
  exact ⟨r, rest, hreq, ⟨hc, hwf⟩, hcmd⟩

end Sys2Proof.Machine

open Sys2Proof Sys2Proof.Machine

/-- Settles O2: no two bytes decode to one operation, and `encode i` decodes to `i`. -/
theorem decodeEncodeRoundTrip : Obligations.DecodeEncodeRoundTrip := by
  intro i cmd
  constructor
  · exact eq_encode_of_decode
  · rintro rfl
    exact decode_encode i

/-- Settles O4: the step and `exec` deliver the same response to the head request. -/
theorem stepRunsDecodedInstruction : Obligations.StepRunsDecodedInstruction := by
  intro s r rest i hreq hp hd
  rw [step_cons hreq hp, exec_cons hreq, stepResponse_of_decode_ok hd]

/-- Settles O5, from O4: the head of the queue carries the word's command and fits the ports. -/
theorem fetchWordIsRunNext : Obligations.FetchWordIsRunNext := by
  intro s w i hc hw
  obtain ⟨-, hd⟩ := decodeTableWord_eq_some_iff.1 hw
  obtain ⟨r, rest, hreq, hp, hcmd⟩ := withFetchWord_head hc 8 w
  exact ⟨stepRunsDecodedInstruction _ r rest i hreq hp (hcmd ▸ hd), _, exec_cons hreq i⟩

end
